-- ==== Sys2Proof/Word.lean ====
section
/-! DEFINITION. The word types of the block: bus words and addresses (20_memory.md R50, R51), field registers and the
reduction input (10_state.md R21, R23), keys (00_scope.md R4) and random words (00_scope.md R5). -/

namespace Sys2Proof

/-- A register-bus data word and a command word: 32 bits (R51, R70). -/
abbrev Word32 := BitVec 32

/-- A register-bus byte address: 12 bits (R50). -/
abbrev Addr := BitVec 12

/-- A field register or coefficient: 89 bits, unsigned (R21). -/
abbrev FieldWord := BitVec 89

/-- The raw reduction input WIDE: 178 bits, unsigned (R23). -/
abbrev WideWord := BitVec 178

/-- A hash key, and the raw word of multiply-shift: 64 bits (R4, R130). -/
abbrev Key := BitVec 64

/-- A random word as the reducer sees it, `zext_178(R)`: at most 178 bits whatever RAND_BITS is (R5, R99). -/
abbrev RandWord := BitVec 178

end Sys2Proof
end

