-- ==== Sys2Proof/Config.lean ====
section
/-! DEFINITION. The fixed constants of the block (00_scope.md R4, R5; 10_state.md R30) and its OPEN parameters
RAND_BITS and LATENCY (R5, R31, R178). The third OPEN parameter, RandomSource, is no constant: every random word is an
input (Machine/State.lean, `Input.offer`). -/

namespace Sys2Proof.Config

/-- The prime exponent (R4). -/
abbrev q : Nat := 89

/-- p = 2^89 − 1; the mask M of R4 is the same number. -/
abbrev p : Nat := 2 ^ 89 - 1

/-- Number of field registers (R5). -/
abbrev NFR : Nat := 16

/-- Number of hash slots (R5). -/
abbrev NSLOT : Nat := 4

/-- The ID register's constant, ASCII "MP89" (R30). -/
def idValue : Word32 := 0x4D503839#32

/-- The OPEN parameters of one block. Both bounds hold by construction: 89 ≤ RAND_BITS ≤ 178 and LATENCY(op) ≥ 1.
Plain data, carried in State as the model's own field that no step writes, so a statement about every state is a
statement about every choice of the parameters (log entry 1). -/
structure Params where
  /-- RAND_BITS − 89. -/
  randExtra : Fin 90
  /-- LATENCY(op) − 1 for each of the 64 opcode values. -/
  latencyExtra : Vector Nat 64
deriving DecidableEq, Repr

/-- RAND_BITS, between 89 and 178 (R5). -/
def Params.randBits (c : Params) : Nat := 89 + c.randExtra.val

/-- LATENCY(op), at least 1, for a 6-bit opcode (R5, R178). -/
def Params.latency (c : Params) (opc : BitVec 6) : Nat := c.latencyExtra[opc.toNat]'(opc.isLt) + 1

/-- DESIGN CHOICE (log entry 1): the parameters that `State.reset` carries. RAND_BITS = 89 is what 95_test_vectors.md
takes "unless stated otherwise"; every latency is the least one. No statement rests on these values. -/
def Params.initial : Params := { randExtra := 0, latencyExtra := Vector.replicate 64 0 }

end Sys2Proof.Config
end

