-- ==== Sys2Proof/Syntax.lean ====
section
/-! DEFINITION. The commands, one constructor per row of spec/opcode_table.json (30_encoding.md R74), with the operands
of R71 to R73. -/

namespace Sys2Proof

/-- A field register index, RD, RA or RB: 0..15, every value legal (R71, R73). -/
abbrev Reg := Fin 16

/-- The SLOT field, 4 bits. Only values below NSLOT are legal, and that is a check, not part of the field (R76 case 4). -/
abbrev SlotField := Fin 16

/-- The W field, 7 bits unsigned. Every value decodes; the range is checked when the command executes (R72). -/
abbrev Width := Fin 128

/-- The twelve commands. -/
inductive Instr where
  /-- NOP (R93). -/
  | nop
  /-- FADD Fd, Fa, Fb (R94). -/
  | fadd (d a b : Reg)
  /-- FMUL Fd, Fa, Fb (R95). -/
  | fmul (d a b : Reg)
  /-- FRED Fd (R96). -/
  | fred (d : Reg)
  /-- FRAND Fd (R97). -/
  | frand (d : Reg)
  /-- HCLR Ss (R111). -/
  | hclr (n : SlotField)
  /-- HCFGMS Ss, Fa, l (R112). -/
  | hcfgms (n : SlotField) (a : Reg) (w : Width)
  /-- HCFGMP Ss, Fa, Fb, l (R113). -/
  | hcfgmp (n : SlotField) (a b : Reg) (w : Width)
  /-- HCFGP3 Ss, Fa, t (R114). -/
  | hcfgp3 (n : SlotField) (a : Reg) (w : Width)
  /-- HSKETCH Ss, t (R115). -/
  | hsketch (n : SlotField) (w : Width)
  /-- HEVAL Fd, Fa, Ss (R135). -/
  | heval (d a : Reg) (n : SlotField)
  /-- HGVAL Fd, Fa, Ss (R136). -/
  | hgval (d a : Reg) (n : SlotField)
deriving DecidableEq, Repr

/-- The SLOT operand of a command that uses SLOT (R74, "used fields"). -/
def Instr.slot? : Instr → Option SlotField
  | .nop => none
  | .fadd _ _ _ => none
  | .fmul _ _ _ => none
  | .fred _ => none
  | .frand _ => none
  | .hclr n => some n
  | .hcfgms n _ _ => some n
  | .hcfgmp n _ _ _ => some n
  | .hcfgp3 n _ _ => some n
  | .hsketch n _ => some n
  | .heval _ _ n => some n
  | .hgval _ _ n => some n

end Sys2Proof
end

