-- ==== Sys2Proof/WellFormed.lean ====
section
/-! DEFINITION. Which commands an assembler accepts and a decoder can produce (30_encoding.md R76 case 4, R78). The
register and width bounds of R78 are in the operand types; the one check left is the slot's. -/

namespace Sys2Proof

/-- A slot operand is legal when it is below NSLOT (R76 case 4). -/
def slotLegal (n : SlotField) : Bool := decide (n.val < Config.NSLOT)

/-- The command is well formed: its slot operand, if it has one, is legal. -/
def Instr.wf (i : Instr) : Bool :=
  match i.slot? with
  | none => true
  | some n => slotLegal n

end Sys2Proof
end

