-- ==== Sys2Proof/Decode.lean ====
section
/-! DEFINITION. The command decoder (30_encoding.md R70 to R77), total on every 32-bit word and refusing by name, and
after it the encoder and the assembler text of R78. -/

namespace Sys2Proof

/-! ### Fields of a command word (R71) -/

/-- OPC = cmd[5:0]. -/
def opcOf (w : Word32) : BitVec 6 := w.extractLsb' 0 6
/-- RD = cmd[9:6]. -/
def rdOf (w : Word32) : BitVec 4 := w.extractLsb' 6 4
/-- RA = cmd[13:10]. -/
def raOf (w : Word32) : BitVec 4 := w.extractLsb' 10 4
/-- RB = cmd[17:14]. -/
def rbOf (w : Word32) : BitVec 4 := w.extractLsb' 14 4
/-- SLOT = cmd[21:18]. -/
def slotOf (w : Word32) : BitVec 4 := w.extractLsb' 18 4
/-- W = cmd[28:22]. -/
def widthOf (w : Word32) : BitVec 7 := w.extractLsb' 22 7
/-- RSV = cmd[31:29]. -/
def rsvOf (w : Word32) : BitVec 3 := w.extractLsb' 29 3

/-- The layout of R71, bit 31 on the left: RSV, W, SLOT, RB, RA, RD, OPC. -/
def packWord (rsv : BitVec 3) (w : BitVec 7) (slot rb ra rd : BitVec 4) (opc : BitVec 6) : Word32 :=
  rsv ++ w ++ slot ++ rb ++ ra ++ rd ++ opc

/-! ### The opcode map (R74) -/

/-- The twelve opcodes of R74. -/
inductive Opcode where
  | nop | fadd | fmul | fred | frand
  | hclr | hcfgms | hcfgmp | hcfgp3 | hsketch
  | heval | hgval
deriving DecidableEq, Repr

/-- Every opcode, in the table's order. -/
def Opcode.all : List Opcode :=
  [.nop, .fadd, .fmul, .fred, .frand, .hclr, .hcfgms, .hcfgmp, .hcfgp3, .hsketch, .heval, .hgval]

/-- The OPC column of R74. -/
def Opcode.code : Opcode → BitVec 6
  | .nop => 0x00#6
  | .fadd => 0x01#6
  | .fmul => 0x02#6
  | .fred => 0x03#6
  | .frand => 0x04#6
  | .hclr => 0x10#6
  | .hcfgms => 0x11#6
  | .hcfgmp => 0x12#6
  | .hcfgp3 => 0x13#6
  | .hsketch => 0x14#6
  | .heval => 0x18#6
  | .hgval => 0x19#6

/-- The match column of R74. -/
def Opcode.pattern : Opcode → Word32
  | .nop => 0x00000000#32
  | .fadd => 0x00000001#32
  | .fmul => 0x00000002#32
  | .fred => 0x00000003#32
  | .frand => 0x00000004#32
  | .hclr => 0x00000010#32
  | .hcfgms => 0x00000011#32
  | .hcfgmp => 0x00000012#32
  | .hcfgp3 => 0x00000013#32
  | .hsketch => 0x00000014#32
  | .heval => 0x00000018#32
  | .hgval => 0x00000019#32

/-- The mask column of R74: OPC, RSV and every field the opcode does not use (R75). -/
def Opcode.mask : Opcode → Word32
  | .nop => 0xFFFFFFFF#32
  | .fadd => 0xFFFC003F#32
  | .fmul => 0xFFFC003F#32
  | .fred => 0xFFFFFC3F#32
  | .frand => 0xFFFFFC3F#32
  | .hclr => 0xFFC3FFFF#32
  | .hcfgms => 0xE003C3FF#32
  | .hcfgmp => 0xE00003FF#32
  | .hcfgp3 => 0xE003C3FF#32
  | .hsketch => 0xE003FFFF#32
  | .heval => 0xFFC3C03F#32
  | .hgval => 0xFFC3C03F#32

/-- The opcode with a given OPC value, if R74 allocates it. -/
def Opcode.ofCode? (c : BitVec 6) : Option Opcode := Opcode.all.find? fun o => o.code == c

/-- The command a row's word stands for, its operands read from the fields of R71. -/
def Opcode.build (o : Opcode) (w : Word32) : Instr :=
  match o with
  | .nop => .nop
  | .fadd => .fadd (rdOf w).toFin (raOf w).toFin (rbOf w).toFin
  | .fmul => .fmul (rdOf w).toFin (raOf w).toFin (rbOf w).toFin
  | .fred => .fred (rdOf w).toFin
  | .frand => .frand (rdOf w).toFin
  | .hclr => .hclr (slotOf w).toFin
  | .hcfgms => .hcfgms (slotOf w).toFin (raOf w).toFin (widthOf w).toFin
  | .hcfgmp => .hcfgmp (slotOf w).toFin (raOf w).toFin (rbOf w).toFin (widthOf w).toFin
  | .hcfgp3 => .hcfgp3 (slotOf w).toFin (raOf w).toFin (widthOf w).toFin
  | .hsketch => .hsketch (slotOf w).toFin (widthOf w).toFin
  | .heval => .heval (rdOf w).toFin (raOf w).toFin (slotOf w).toFin
  | .hgval => .hgval (rdOf w).toFin (raOf w).toFin (slotOf w).toFin

/-! ### Decoding (R76) -/

/-- Why a word is illegal, in the order of R76's four cases. All four raise ILLEGAL_CMD. -/
inductive Illegal where
  /-- Case 1: an OPC that R74 does not define. -/
  | opcode
  /-- Case 2: RSV ≠ 0. -/
  | reserved
  /-- Case 3: a non-zero field that the opcode does not use. -/
  | unusedField
  /-- Case 4: SLOT ≥ NSLOT in an opcode that uses SLOT. -/
  | slotRange
deriving DecidableEq, Repr

/-- `Decode(w)` of R76, total on every 32-bit word. A word passes the first three tests exactly when it matches a row of
R74, `(w & mask) = match`; the fourth is the value check on SLOT. -/
def decode (w : Word32) : Except Illegal Instr :=
  match Opcode.ofCode? (opcOf w) with
  | none => .error .opcode
  | some o =>
    if rsvOf w ≠ 0#3 then .error .reserved
    else if w &&& o.mask ≠ o.pattern then .error .unusedField
    else if (o.build w).wf then .ok (o.build w)
    else .error .slotRange

/-- The decoder on a row of spec/opcode_table.json: an instruction of `nbits` bits whose bits are `w`, bit 0 least
significant. A command is one 32-bit word (R70), so the bits above `nbits` are 0. -/
def decodeTableWord (nbits w : Nat) : Option Instr :=
  match decode (BitVec.ofNat 32 (w % 2 ^ nbits)) with
  | .ok i => some i
  | .error _ => none

/-! ### Encoding (R78) -/

/-- The opcode of a command. -/
def Instr.opcode : Instr → Opcode
  | .nop => .nop
  | .fadd _ _ _ => .fadd
  | .fmul _ _ _ => .fmul
  | .fred _ => .fred
  | .frand _ => .frand
  | .hclr _ => .hclr
  | .hcfgms _ _ _ => .hcfgms
  | .hcfgmp _ _ _ _ => .hcfgmp
  | .hcfgp3 _ _ _ => .hcfgp3
  | .hsketch _ _ => .hsketch
  | .heval _ _ _ => .heval
  | .hgval _ _ _ => .hgval

/-- The word of a command: `OPC | RD<<6 | RA<<10 | RB<<14 | SLOT<<18 | W<<22`, unused fields 0 (R78). -/
def encode (i : Instr) : Word32 :=
  match i with
  | .nop => packWord 0 0 0 0 0 0 Opcode.nop.code
  | .fadd d a b => packWord 0 0 0 (.ofFin b) (.ofFin a) (.ofFin d) Opcode.fadd.code
  | .fmul d a b => packWord 0 0 0 (.ofFin b) (.ofFin a) (.ofFin d) Opcode.fmul.code
  | .fred d => packWord 0 0 0 0 0 (.ofFin d) Opcode.fred.code
  | .frand d => packWord 0 0 0 0 0 (.ofFin d) Opcode.frand.code
  | .hclr n => packWord 0 0 (.ofFin n) 0 0 0 Opcode.hclr.code
  | .hcfgms n a w => packWord 0 (.ofFin w) (.ofFin n) 0 (.ofFin a) 0 Opcode.hcfgms.code
  | .hcfgmp n a b w => packWord 0 (.ofFin w) (.ofFin n) (.ofFin b) (.ofFin a) 0 Opcode.hcfgmp.code
  | .hcfgp3 n a w => packWord 0 (.ofFin w) (.ofFin n) 0 (.ofFin a) 0 Opcode.hcfgp3.code
  | .hsketch n w => packWord 0 (.ofFin w) (.ofFin n) 0 0 0 Opcode.hsketch.code
  | .heval d a n => packWord 0 0 (.ofFin n) 0 (.ofFin a) (.ofFin d) Opcode.heval.code
  | .hgval d a n => packWord 0 0 (.ofFin n) 0 (.ofFin a) (.ofFin d) Opcode.hgval.code

/-! ### Assembler text (R78) -/

/-- A field register's name, `F0` to `F15`. -/
def regText (r : Reg) : String := "F" ++ toString r.val

/-- A slot's name, `S0` to `S3` for the legal ones. -/
def slotText (n : SlotField) : String := "S" ++ toString n.val

/-- The assembler line of a command (R78). -/
def Instr.text : Instr → String
  | .nop => "NOP"
  | .fadd d a b => "FADD " ++ regText d ++ ", " ++ regText a ++ ", " ++ regText b
  | .fmul d a b => "FMUL " ++ regText d ++ ", " ++ regText a ++ ", " ++ regText b
  | .fred d => "FRED " ++ regText d
  | .frand d => "FRAND " ++ regText d
  | .hclr n => "HCLR " ++ slotText n
  | .hcfgms n a w => "HCFGMS " ++ slotText n ++ ", " ++ regText a ++ ", " ++ toString w.val
  | .hcfgmp n a b w =>
    "HCFGMP " ++ slotText n ++ ", " ++ regText a ++ ", " ++ regText b ++ ", " ++ toString w.val
  | .hcfgp3 n a w => "HCFGP3 " ++ slotText n ++ ", " ++ regText a ++ ", " ++ toString w.val
  | .hsketch n w => "HSKETCH " ++ slotText n ++ ", " ++ toString w.val
  | .heval d a n => "HEVAL " ++ regText d ++ ", " ++ regText a ++ ", " ++ slotText n
  | .hgval d a n => "HGVAL " ++ regText d ++ ", " ++ regText a ++ ", " ++ slotText n

end Sys2Proof
end

