-- ==== Sys2Proof/Machine/State.lean ====
section
/-! DEFINITION. The block's whole state as plain data (10_state.md R20 to R35), its inputs and its answers to the host
(20_memory.md R63 to R67), the reasons a step could stop, and the state after reset (R35). -/

namespace Sys2Proof.Machine

open Config

/-! ### Hash slots (R24) -/

/-- A slot's `kind`, with the encoding of R24 in `Kind.code`. -/
inductive Kind where
  /-- Never constructed, or cleared. -/
  | none
  /-- multiply_shift. -/
  | mshift
  /-- multiply_mod_p. -/
  | mmodp
  /-- degree-3 polynomial. -/
  | poly3
deriving DecidableEq, Repr

/-- One hash slot (R24): kind, width, c[0..3]. -/
structure Slot where
  kind : Kind
  width : BitVec 7
  coef : Vector FieldWord 4
deriving DecidableEq, Repr

/-- The unconstructed slot: what reset and HCLR leave (R35, R111). -/
def Slot.empty : Slot := { kind := .none, width := 0, coef := Vector.replicate 4 0 }

/-! ### Status (R25 to R27) -/

/-- The error codes of 60_exceptions.md R151. Codes 6 to 15 are reserved and never produced, so they have no
constructor. -/
inductive ErrCode where
  /-- 0: no error since the last clear. -/
  | none
  /-- 1 (R152). -/
  | illegalCmd
  /-- 2 (R153). -/
  | invalidParameter
  /-- 3 (R154). -/
  | unconfigured
  /-- 4 (R155). -/
  | cmdOverrun
  /-- 5 (R156). -/
  | busyWrite
deriving DecidableEq, Repr

/-- STATUS less BUSY, which is a view of the command in flight (R25, R32). -/
structure Status where
  err : Bool
  sign : Bool
  errcode : ErrCode
deriving DecidableEq, Repr

/-! ### Registers and the command in flight (R20, R32) -/

/-- Everything a command can read or write but STATUS: F[0..15], WIDE and S[0..3]. It is also what the acceptance of a
command snapshots (R174). -/
structure Regs where
  f : Vector FieldWord 16
  wide : WideWord
  slots : Vector Slot 4
deriving DecidableEq, Repr

/-- The in-flight command state of R32; `busy` is that there is one. -/
structure InFlight where
  /-- The accepted command word. -/
  cmd : Word32
  /-- The registers as they were at acceptance. -/
  snapshot : Regs
  /-- The coefficients drawn so far, oldest first. -/
  draws : List FieldWord
  /-- Cycles since acceptance as LATENCY(op) counts them: the stalls of the random port are left out (R178; DEDUCED, log
  entry 9). -/
  elapsed : Nat
deriving DecidableEq, Repr

/-! ### The outside world: bus requests, responses and other inputs (R63, R66, R67, R170) -/

/-- A register-bus request of the host: `MemRead(addr, 4)` or `MemWrite(addr, 4, data)`. -/
inductive BusReq where
  | read (addr : Addr)
  | write (addr : Addr) (data : Word32)
deriving DecidableEq, Repr

/-- A response: `resp_rdata` and `resp_err`. -/
structure BusResp where
  rdata : Word32
  err : Bool
deriving DecidableEq, Repr

/-- What the outside world and the clock do next. The order of these inputs is all of the outside that is architectural
(R63, R178); every order is possible, so a statement about every `State.env` covers every interleaving (DESIGN CHOICE,
log entries 2 and 5). -/
inductive Input where
  /-- The host's next bus access is serviced and answered. -/
  | bus (r : BusReq)
  /-- The random source offers one more word, after those already offered (R66). -/
  | offer (w : RandWord)
  /-- A clock edge with rst = 1; `outstanding` is the request, if any, that was accepted and not answered (R171, R172). -/
  | rst (outstanding : Option BusReq)
  /-- A cycle in which only the command engine acts. -/
  | cycle
deriving DecidableEq, Repr

/-! ### The state -/

/-- The whole state. The first four fields are the spec's architectural and hidden state (R20, R32); CTRL and CMD hold
none (R28, R29) and ID and PARAM are constants (R30, R31). The last four are the model's own: the OPEN parameters and
the two sides of the interface. -/
structure State where
  /-- F[0..15], WIDE and S[0..3] (R21, R23, R24). -/
  regs : Regs
  /-- STATUS.ERR, SIGN and ERRCODE (R25). -/
  status : Status
  /-- The command in flight, if any (R32); STATUS.BUSY is that there is one. -/
  inFlight : Option InFlight
  /-- Words the random source has offered and the block has not taken, oldest first (R66); rnd_valid is that there is
  one. -/
  rnd : List RandWord
  /-- The OPEN parameters RAND_BITS and LATENCY (R5); no step writes them. -/
  params : Params
  /-- What the outside world does next, first input first. -/
  env : List Input
  /-- The responses sent so far, newest first (R67). -/
  responses : List BusResp
deriving DecidableEq, Repr

/-- STATUS.BUSY, and the busy pin (R25, R67; DEDUCED, log entry 11). -/
def State.busy (s : State) : Bool := s.inFlight.isSome

/-! ### Why a step could stop -/

/-- Nothing stops the block: "The block never traps, never vectors and never stops for an error" (R150). So no fault
exists, which is safe (DEDUCED, log entry 8): errors are next states with STATUS.ERR set, and the wait for random
words of R165 is a next state with BUSY set. -/
inductive Fault where
deriving DecidableEq, Repr

/-- The refusals. -/
inductive Refusal where
  /-- Raised by an arm of exec whose command has no meaning yet; no arm is in that case. Safe. -/
  | notModelled (mnemonic : String)
deriving DecidableEq, Repr

/-- The outcome of a step. -/
abbrev Result := Host.Outcome State Fault Refusal

/-! ### Reset (R35) -/

/-- F, WIDE and the slots after reset. -/
def Regs.reset : Regs :=
  { f := Vector.replicate 16 0, wide := 0, slots := Vector.replicate 4 Slot.empty }

/-- STATUS.ERR, SIGN and ERRCODE after reset. -/
def Status.reset : Status := { err := false, sign := false, errcode := .none }

/-- The state after reset (R35): every register 0, every slot NONE, no command in flight. No random word is offered, no
input is scheduled and no response has been sent; the parameters are log entry 1's. -/
def State.reset : State :=
  { regs := Regs.reset
    status := Status.reset
    inFlight := none
    rnd := []
    params := Params.initial
    env := []
    responses := [] }

end Sys2Proof.Machine
end

