-- ==== Sys2Proof/Machine/Arith.lean ====
section
/-! DEFINITION. The named functions of 00_scope.md R10: Fold, Reduce (40_field_arith.md R90, R91), Poly3, MShift, MModP
(42_hash_eval.md R131 to R133). Values are naturals, computed exactly and narrowed once at the end. -/

namespace Sys2Proof.Machine

open Config

/-- `Fold(y) = (y & M) + (y >> 89)`, with M = p (R90). -/
def fold (y : Nat) : Nat := (y &&& p) + (y >>> q)

/-- `Reduce(y)` as a natural: two folds, then one compare and subtract (R91). -/
def reduceNat (y : Nat) : Nat :=
  if p ≤ fold (fold y) then fold (fold y) - p else fold (fold y)

/-- `Reduce(y)`, 89 bits (R91). Every use has y < 2^178 (R6). -/
def reduce (y : Nat) : FieldWord := BitVec.ofNat 89 (reduceNat y)

/-- One Horner step: multiply by the key and reduce, add the next coefficient and reduce (R131). -/
def hornerStep (x : Key) (acc ck : FieldWord) : FieldWord :=
  reduce ((reduce (acc.toNat * x.toNat)).toNat + ck.toNat)

/-- `Poly3(c, x)`: Horner's rule from c[3] down to c[0], every product and sum reduced at once (R131). -/
def poly3 (co : Vector FieldWord 4) (x : Key) : FieldWord :=
  hornerStep x (hornerStep x (hornerStep x co[3] co[2]) co[1]) co[0]

/-- The `raw` of `MShift(a, l, x)`: the low 64 bits of a·x (R132). -/
def mshiftRaw (a x : Key) : Key := a * x

/-- The `out` of `MShift(a, l, x)`: the top l bits of raw (R132, where 1 ≤ l ≤ 63; outside, log entry 10). -/
def mshiftOut (a : Key) (l : Nat) (x : Key) : Key := mshiftRaw a x >>> (64 - l)

/-- The `raw` of `MModP(a, b, l, x)`: (a·x + b) mod p (R133). -/
def mmodpRaw (a b : FieldWord) (x : Key) : FieldWord := reduce (a.toNat * x.toNat + b.toNat)

/-- `v[l-1:0]`, the low l bits of a field word (R133, R134). -/
def lowBits (v : FieldWord) (l : Nat) : FieldWord := BitVec.ofNat 89 (v.toNat % 2 ^ l)

end Sys2Proof.Machine
end

