-- ==== Sys2Proof/Machine/Flags.lean ====
section
/-! DEFINITION. STATUS: its fields' computations and its word (10_state.md R25 to R27, 60_exceptions.md R151, R158,
R161). -/

namespace Sys2Proof.Machine

/-- The number of an error code (R151). -/
def ErrCode.code : ErrCode → BitVec 4
  | .none => 0
  | .illegalCmd => 1
  | .invalidParameter => 2
  | .unconfigured => 3
  | .cmdOverrun => 4
  | .busyWrite => 5

/-- `RecordError(code)`: the first error since the last clear wins (R27, R158). -/
def Status.record (st : Status) (c : ErrCode) : Status :=
  if st.err then st else { st with err := true, errcode := c }

/-- What ECLR does to STATUS: ERR and ERRCODE cleared, SIGN kept (R28, R161). -/
def Status.clear (st : Status) : Status := { st with err := false, errcode := .none }

/-- SIGN of a POLY3 evaluation: bit 88 of g(x), 0 for +1 and 1 for −1 (R26, R138). -/
def signBit (g : FieldWord) : Bool := g.getLsbD 88

/-- The STATUS word: bit 0 BUSY, bit 1 ERR, bit 2 SIGN, bits 11:8 ERRCODE, all others 0 (R25). -/
def State.statusWord (s : State) : Word32 :=
  0#20 ++ s.status.errcode.code ++ 0#5 ++ BitVec.ofBool s.status.sign ++ BitVec.ofBool s.status.err
    ++ BitVec.ofBool s.busy

end Sys2Proof.Machine
end

