-- ==== Sys2Proof/Machine/Operands.lean ====
section
/-! DEFINITION. Operand forms: field registers, the four-register group of HCFGP3, keys, the multiply-shift coefficient,
slots and widths, all read from the snapshot taken at acceptance (00_scope.md R9, 30_encoding.md R72, R73,
41_hash_config.md R110, R112, 42_hash_eval.md R130), and the words of a multi-word value (20_memory.md R55, R56). -/

namespace Sys2Proof.Machine

open Config

/-! ### Registers as commands read them (R9, R174) -/

/-- The registers a command reads: the snapshot taken when it was accepted. For a state with no command in flight these
are the registers as they stand, as if the command were accepted there (DESIGN CHOICE, log entry 6). -/
def State.operands (s : State) : Regs :=
  match s.inFlight with
  | some fl => fl.snapshot
  | none => s.regs

/-- `F[i]` as a source operand (R73). -/
def State.src (s : State) (i : Reg) : FieldWord := s.operands.f[i]

/-- `F[(RA + k) mod 16]`, the k-th register of HCFGP3's group (R73). -/
def State.srcGroup (s : State) (a k : Reg) : FieldWord := s.src (a + k)

/-- `Key(v) = v[63:0]` (R130). -/
def keyOf (v : FieldWord) : Key := v.setWidth 64

/-- `F[a][63:0] | 1`, forced odd (R112). -/
def oddCoef (v : FieldWord) : Key := v.setWidth 64 ||| 1#64

/-! ### Operand checks (R76 case 4, R110) -/

/-- The largest width of a kind (R110); the least is 1. -/
def maxWidth : Kind → Nat
  | .none => 0
  | .mshift => 63
  | .mmodp => 64
  | .poly3 => 64

/-- W is in the kind's range (R110). -/
def widthOk (k : Kind) (w : Width) : Bool := decide (1 ≤ w.val ∧ w.val ≤ maxWidth k)

/-- How many random words a command takes: FRAND one, HSKETCH four once both its checks pass, every other command none
(R116). -/
def drawsNeeded : Instr → Nat
  | .nop => 0
  | .fadd _ _ _ => 0
  | .fmul _ _ _ => 0
  | .fred _ => 0
  | .frand _ => 1
  | .hclr _ => 0
  | .hcfgms _ _ _ => 0
  | .hcfgmp _ _ _ _ => 0
  | .hcfgp3 _ _ _ => 0
  | .hsketch n w => if slotLegal n && widthOk .poly3 w then 4 else 0
  | .heval _ _ _ => 0
  | .hgval _ _ _ => 0

/-! ### The 32-bit words of a wider value (R55, R56) -/

/-- Word k of a value: bits 32k+31:32k, bits beyond the width reading 0. -/
def wordOf {n : Nat} (v : BitVec n) (k : Nat) : Word32 := v.extractLsb' (32 * k) 32

/-- A write of word k: the bits 32k+31:32k that the register has take the data; bits beyond its width are dropped. -/
def setWord {n : Nat} (v : BitVec n) (k : Nat) (d : Word32) : BitVec n :=
  (v &&& ~~~((BitVec.allOnes 32).setWidth n <<< (32 * k))) ||| (d.setWidth n <<< (32 * k))

end Sys2Proof.Machine
end

