-- ==== Sys2Proof/Machine/Ops.lean ====
section
/-! DEFINITION. The operations every command and bus access is made of: errors (60_exceptions.md R158, R160, R161),
reset (70_reset_and_hazards.md R170, R171), acceptance and commit (R174) and random draws (40_field_arith.md R99,
41_hash_config.md R116). -/

namespace Sys2Proof.Machine

open Config

/-! ### Errors: the block's form of taking an exception, and of returning from one -/

/-- `RecordError(code)`: the block's only form of taking an exception. Nothing is saved and nothing is vectored to; STATUS
records the first error (R150, R158). -/
def State.recordError (s : State) (c : ErrCode) : State := { s with status := s.status.record c }

/-- ECLR, the block's form of returning from an exception (R28, R161). -/
def State.clearError (s : State) : State := { s with status := s.status.clear }

/-! ### Reset -/

/-- The reset of R171: every piece of the block's state takes its value of R35, and a command in flight is aborted. What
lies outside the block stays (DEDUCED, log entry 12): words offered and not taken, the inputs to come, the responses already sent, and the
parameters. -/
def State.resetBlock (s : State) : State :=
  { s with regs := Regs.reset, status := Status.reset, inFlight := none }

/-! ### Acceptance and commit (R174) -/

/-- The in-flight record of a command just accepted: the word latched, the registers snapshotted, nothing drawn. -/
def State.newFlight (s : State) (w : Word32) : InFlight :=
  { cmd := w, snapshot := s.regs, draws := [], elapsed := 0 }

/-- Acceptance of a command word by an idle block (R29, R174). -/
def State.accept (s : State) (w : Word32) : State := { s with inFlight := some (s.newFlight w) }

/-- A command's outcome: an error, or the writes it makes. -/
inductive CmdOutcome where
  | error (c : ErrCode)
  | writes (f : Option (Reg × FieldWord)) (slot : Option (Fin 4 × Slot)) (sign : Option Bool)
deriving DecidableEq, Repr

/-- The outcome that writes F[d] only. -/
def CmdOutcome.writeF (d : Reg) (v : FieldWord) : CmdOutcome := .writes (some (d, v)) none none

/-- The outcome that writes slot n only. -/
def CmdOutcome.writeSlot (n : Fin 4) (sl : Slot) : CmdOutcome := .writes none (some (n, sl)) none

/-- F[RD] and S[SLOT] written. -/
def Regs.write (r : Regs) (f : Option (Reg × FieldWord)) (slot : Option (Fin 4 × Slot)) : Regs :=
  { r with
    f := match f with
      | none => r.f
      | some (d, v) => r.f.set d v
    slots := match slot with
      | none => r.slots
      | some (n, sl) => r.slots.set n sl }

/-- STATUS.SIGN written. -/
def Status.write (st : Status) (sign : Option Bool) : Status :=
  match sign with
  | none => st
  | some b => { st with sign := b }

/-- The commit: the writes, or the error and nothing else, and BUSY falls, all in one step (R160, R174). -/
def State.commit (s : State) (o : CmdOutcome) : State :=
  match o with
  | .error c => { s.recordError c with inFlight := none }
  | .writes f slot sign =>
    { s with regs := s.regs.write f slot, status := s.status.write sign, inFlight := none }

/-- The slot check of R76 case 4: the outcome of a command on slot n, ILLEGAL_CMD where n ≥ NSLOT. -/
def withSlot (n : SlotField) (k : Fin 4 → CmdOutcome) : CmdOutcome :=
  if h : n.val < 4 then k ⟨n.val, h⟩ else .error .illegalCmd

/-- The width check of R110: INVALID_PARAMETER where W is outside the kind's range. -/
def withWidth (k : Kind) (w : Width) (o : CmdOutcome) : CmdOutcome :=
  if widthOk k w then o else .error .invalidParameter

/-- A constructed slot of a kind, with width W and four coefficients. -/
def mkSlot (k : Kind) (w : Width) (c0 c1 c2 c3 : FieldWord) : Slot :=
  { kind := k, width := .ofFin w, coef := #v[c0, c1, c2, c3] }

/-! ### Random draws -/

/-- `CoefDraw()` on one word of the random port: its low RAND_BITS bits, reduced (R66, R99). -/
def State.coef (s : State) (w : RandWord) : FieldWord := reduce (w.toNat % 2 ^ s.params.randBits)

/-- The command in flight; for a state with none, the record of `cmd` accepted there. -/
def State.flightOr (s : State) (cmd : Word32) : InFlight := s.inFlight.getD (s.newFlight cmd)

/-- The draws of a command that needs `need` of them: it takes words from the port, oldest first, until it holds `need`
or none is offered (R66, R116; DESIGN CHOICE, log entry 3: the cycle that commits may stand for several handshakes). -/
def State.takeDraws (s : State) (need : Nat) (cmd : Word32) : State :=
  let fl := s.flightOr cmd
  let miss := need - fl.draws.length
  { s with
    rnd := s.rnd.drop miss
    inFlight := some { fl with draws := fl.draws ++ (s.rnd.take miss).map s.coef } }

/-- The coefficients the command in flight holds. -/
def State.drawsHeld (s : State) : List FieldWord :=
  match s.inFlight with
  | some fl => fl.draws
  | none => []

/-- A command that draws: it takes what is offered; with all `need` words it commits `k` of them, and without it waits,
BUSY still 1 (R165, R174). -/
def State.drawThen (s : State) (need : Nat) (cmd : Word32) (k : List FieldWord → CmdOutcome) : State :=
  let s' := s.takeDraws need cmd
  if s'.drawsHeld.length < need then s' else s'.commit (k s'.drawsHeld)

end Sys2Proof.Machine
end

