-- ==== Sys2Proof/Machine/FieldArith.lean ====
section
/-! DEFINITION. The field arithmetic commands (40_field_arith.md R93 to R97), each run on the operands of its acceptance
and committed in one step (70_reset_and_hazards.md R174). -/

namespace Sys2Proof.Machine

/-- NOP: no operation (R93). -/
def execNop (s : State) : Result := .next (s.commit (.writes none none none))

/-- FADD Fd, Fa, Fb: F[d] <- Reduce(F[a] + F[b]) (R94). -/
def execFadd (d a b : Reg) (s : State) : Result :=
  .next (s.commit (.writeF d (reduce ((s.src a).toNat + (s.src b).toNat))))

/-- FMUL Fd, Fa, Fb: F[d] <- Reduce(F[a] * F[b]) (R95). -/
def execFmul (d a b : Reg) (s : State) : Result :=
  .next (s.commit (.writeF d (reduce ((s.src a).toNat * (s.src b).toNat))))

/-- FRED Fd: F[d] <- Reduce(WIDE) (R96). -/
def execFred (d : Reg) (s : State) : Result :=
  .next (s.commit (.writeF d (reduce s.operands.wide.toNat)))

/-- FRAND Fd: F[d] <- CoefDraw(), waiting for the word (R97, R99). -/
def execFrand (d : Reg) (s : State) : Result :=
  .next (s.drawThen (drawsNeeded (.frand d)) (encode (.frand d)) fun cs => .writeF d (cs.headD 0))

end Sys2Proof.Machine
end

