-- ==== Sys2Proof/Machine/HashConfig.lean ====
section
/-! DEFINITION. The slot construction commands (41_hash_config.md R110 to R116): the slot check, then the width check,
then any draws, then the six fields of the slot written together. -/

namespace Sys2Proof.Machine

/-- HCLR Ss: the slot becomes NONE (R111). -/
def execHclr (n : SlotField) (s : State) : Result :=
  .next (s.commit (withSlot n fun i => .writeSlot i Slot.empty))

/-- HCFGMS Ss, Fa, l: multiply-shift with a = F[a][63:0] | 1 (R112). -/
def execHcfgms (n : SlotField) (a : Reg) (w : Width) (s : State) : Result :=
  .next (s.commit (withSlot n fun i => withWidth .mshift w
    (.writeSlot i (mkSlot .mshift w ((oddCoef (s.src a)).setWidth 89) 0 0 0))))

/-- HCFGMP Ss, Fa, Fb, l: multiply-mod-p with both coefficients reduced (R113). -/
def execHcfgmp (n : SlotField) (a b : Reg) (w : Width) (s : State) : Result :=
  .next (s.commit (withSlot n fun i => withWidth .mmodp w
    (.writeSlot i (mkSlot .mmodp w (reduce (s.src a).toNat) (reduce (s.src b).toNat) 0 0))))

/-- HCFGP3 Ss, Fa, t: a polynomial from F[a], F[a+1], F[a+2], F[a+3], indices mod 16, each reduced (R114). -/
def execHcfgp3 (n : SlotField) (a : Reg) (w : Width) (s : State) : Result :=
  .next (s.commit (withSlot n fun i => withWidth .poly3 w
    (.writeSlot i (mkSlot .poly3 w (reduce (s.srcGroup a 0).toNat) (reduce (s.srcGroup a 1).toNat)
      (reduce (s.srcGroup a 2).toNat) (reduce (s.srcGroup a 3).toNat)))))

/-- HSKETCH Ss, t: a polynomial from four fresh draws in the order a0, a1, a2, a3; a command that fails a check draws
nothing (R115, R116). -/
def execHsketch (n : SlotField) (w : Width) (s : State) : Result :=
  .next (s.drawThen (drawsNeeded (.hsketch n w)) (encode (.hsketch n w)) fun cs =>
    withSlot n fun i => withWidth .poly3 w
      (.writeSlot i (mkSlot .poly3 w (cs.getD 0 0) (cs.getD 1 0) (cs.getD 2 0) (cs.getD 3 0))))

end Sys2Proof.Machine
end

