-- ==== Sys2Proof/Machine/HashEval.lean ====
section
/-! DEFINITION. The hash evaluation commands (42_hash_eval.md R134 to R136). -/

namespace Sys2Proof.Machine

/-- The triple of `HashEval`: h(x), the value before truncation, and the sign bit (R134). -/
structure HashOut where
  out : FieldWord
  raw : FieldWord
  sign : Bool
deriving DecidableEq, Repr

/-- `HashEval(s, x)`: the dispatch on the slot's kind; none stands for UNCONFIGURED (R134). -/
def hashEval (sl : Slot) (x : Key) : Option HashOut :=
  match sl.kind with
  | .none => none
  | .mshift =>
    some { out := (mshiftOut (sl.coef[0].setWidth 64) sl.width.toNat x).setWidth 89
           raw := (mshiftRaw (sl.coef[0].setWidth 64) x).setWidth 89
           sign := false }
  | .mmodp =>
    some { out := lowBits (mmodpRaw sl.coef[0] sl.coef[1] x) sl.width.toNat
           raw := mmodpRaw sl.coef[0] sl.coef[1] x
           sign := false }
  | .poly3 =>
    some { out := lowBits (poly3 sl.coef x) sl.width.toNat
           raw := poly3 sl.coef x
           sign := signBit (poly3 sl.coef x) }

/-- `HashEval` of slot n on the key in F[a], both as of acceptance, and what the command then writes; UNCONFIGURED for a
NONE slot, ILLEGAL_CMD for a slot that does not exist. -/
def evalThen (n : SlotField) (a : Reg) (s : State) (k : HashOut → CmdOutcome) : CmdOutcome :=
  withSlot n fun i =>
    match hashEval s.operands.slots[i] (keyOf (s.src a)) with
    | none => .error .unconfigured
    | some h => k h

/-- HEVAL Fd, Fa, Ss: F[d] <- h(x), STATUS.SIGN <- sign (R135). -/
def execHeval (d a : Reg) (n : SlotField) (s : State) : Result :=
  .next (s.commit (evalThen n a s fun h => .writes (some (d, h.out)) none (some h.sign)))

/-- HGVAL Fd, Fa, Ss: F[d] <- raw, STATUS.SIGN kept (R136). -/
def execHgval (d a : Reg) (n : SlotField) (s : State) : Result :=
  .next (s.commit (evalThen n a s fun h => .writeF d h.raw))

end Sys2Proof.Machine
end

