-- ==== Sys2Proof/Machine/Dispatch.lean ====
section
/-! DEFINITION. One arm per command of the opcode table (30_encoding.md R74). -/

namespace Sys2Proof.Machine

def exec (i : Instr) (s : State) : Host.Outcome State Fault Refusal :=
  match i with
  | .nop => Sys2Proof.Machine.execNop s
  | .fadd d a b => Sys2Proof.Machine.execFadd d a b s
  | .fmul d a b => Sys2Proof.Machine.execFmul d a b s
  | .fred d => Sys2Proof.Machine.execFred d s
  | .frand d => Sys2Proof.Machine.execFrand d s
  | .hclr n => Sys2Proof.Machine.execHclr n s
  | .hcfgms n a w => Sys2Proof.Machine.execHcfgms n a w s
  | .hcfgmp n a b w => Sys2Proof.Machine.execHcfgmp n a b w s
  | .hcfgp3 n a w => Sys2Proof.Machine.execHcfgp3 n a w s
  | .hsketch n w => Sys2Proof.Machine.execHsketch n w s
  | .heval d a n => Sys2Proof.Machine.execHeval d a n s
  | .hgval d a n => Sys2Proof.Machine.execHgval d a n s

end Sys2Proof.Machine
end

