-- ==== Sys2Proof/Machine/HostBus.lean ====
section
/-! DEFINITION. The register bus: the register map, reads, writes and their responses, idle and busy (20_memory.md R50 to
R62, 10_state.md R28 to R31), and the random port and reset as inputs (R66, R170). -/

namespace Sys2Proof.Machine

open Config

/-! ### The register map (R52 to R54, R57) -/

/-- What a byte address names. There is no data memory beside these (R20, R50; DEDUCED, log entry 7). -/
inductive Target where
  | id
  | cmd
  | status
  | ctrl
  | param
  /-- WIDE word k. -/
  | wide (k : Fin 6)
  /-- F[i] word k. -/
  | f (i : Fin 16) (k : Fin 3)
  /-- SCFG[n]. -/
  | scfg (n : Fin 4)
  /-- S[n].c[k] word j. -/
  | coef (n k : Fin 4) (j : Fin 3)
  /-- A reserved address inside 0x000..0x3FF: RAZ/WI. -/
  | reserved
  /-- Misaligned, or in 0x400..0xFFF: a bus error. -/
  | busError
deriving DecidableEq, Repr

/-- The addresses below 0x20. -/
def targetLow (n : Nat) : Target :=
  if n = 0x00 then .id
  else if n = 0x04 then .cmd
  else if n = 0x08 then .status
  else if n = 0x0C then .ctrl
  else if n = 0x10 then .param
  else .reserved

/-- F[i] word k at 0x100 + 0x10·i + 4·k; the fourth word of each group is reserved. -/
def targetField (n : Nat) : Target :=
  let i := (n - 0x100) / 0x10
  let k := n % 0x10 / 4
  if h : k < 3 then .f (Fin.ofNat 16 i) ⟨k, h⟩ else .reserved

/-- SCFG[n] at 0x200 + 0x80·n and S[n].c[k] word j at 0x200 + 0x80·n + 0x10·(k+1) + 4·j; the rest is reserved. -/
def targetSlot (n : Nat) : Target :=
  let i := (n - 0x200) / 0x80
  let off := n % 0x80
  let j := off % 0x10 / 4
  if off = 0 then .scfg (Fin.ofNat 4 i)
  else if h : 0x10 ≤ off ∧ off < 0x50 ∧ j < 3 then .coef (Fin.ofNat 4 i) (Fin.ofNat 4 (off / 0x10 - 1)) ⟨j, h.2.2⟩
  else .reserved

/-- The register map of R54, with the bus errors of R52 and R53. -/
def target (a : Addr) : Target :=
  let n := a.toNat
  if n % 4 ≠ 0 ∨ 0x400 ≤ n then .busError
  else if n < 0x20 then targetLow n
  else if n < 0x38 then .wide (Fin.ofNat 6 ((n - 0x20) / 4))
  else if n < 0x100 then .reserved
  else if n < 0x200 then targetField n
  else targetSlot n

/-! ### Reads (R54, R59, R60) -/

/-- The two bits of a kind (R24). -/
def Kind.code : Kind → BitVec 2
  | .none => 0
  | .mshift => 1
  | .mmodp => 2
  | .poly3 => 3

/-- SCFG: bits 1:0 kind, bits 14:8 width, all others 0 (R54). -/
def Slot.scfg (sl : Slot) : Word32 := 0#17 ++ sl.width ++ 0#6 ++ sl.kind.code

/-- PARAM: Q, RAND_BITS, NSLOT and NFR, one byte each from the top (R31). -/
def paramWord (c : Params) : Word32 :=
  BitVec.ofNat 8 q ++ BitVec.ofNat 8 c.randBits ++ BitVec.ofNat 8 NSLOT ++ BitVec.ofNat 8 NFR

/-- The word a target reads as (R54). CMD, CTRL, reserved addresses and bus errors read 0 (R52, R53, R57, R59). -/
def State.readTarget (s : State) : Target → Word32
  | .id => idValue
  | .cmd => 0
  | .status => s.statusWord
  | .ctrl => 0
  | .param => paramWord s.params
  | .wide k => wordOf s.regs.wide k.val
  | .f i k => wordOf s.regs.f[i] k.val
  | .scfg n => s.regs.slots[n].scfg
  | .coef n k j => wordOf s.regs.slots[n].coef[k] j.val
  | .reserved => 0
  | .busError => 0

/-- The answer to a read; no read has a side effect (R60), busy or not (R62, R177). -/
def State.busRead (s : State) (a : Addr) : BusResp :=
  { rdata := s.readTarget (target a), err := target a == .busError }

/-! ### Writes (R28, R29, R56 to R58, R62) -/

/-- A CMD write: accepted by an idle block; dropped with CMD_OVERRUN by a busy one (R29, R155, R174). -/
def State.writeCmd (s : State) (w : Word32) : State :=
  if s.busy then s.recordError .cmdOverrun else s.accept w

/-- A CTRL write: bit 0 SRST, else bit 1 ECLR; it acts whether or not the block is busy (R28). -/
def State.writeCtrl (s : State) (v : Word32) : State :=
  if v.getLsbD 0 then s.resetBlock
  else if v.getLsbD 1 then s.clearError
  else s

/-- A WIDE or F write: dropped with BUSY_WRITE by a busy block (R62, R156). -/
def State.writeRegs (s : State) (r : Regs) : State :=
  if s.busy then s.recordError .busyWrite else { s with regs := r }

/-- What a write to a target does. Read-only and reserved targets ignore it, and a bus error changes nothing (R52, R53,
R57, R58). -/
def State.writeTarget (s : State) (t : Target) (d : Word32) : State :=
  match t with
  | .id => s
  | .cmd => s.writeCmd d
  | .status => s
  | .ctrl => s.writeCtrl d
  | .param => s
  | .wide k => s.writeRegs { s.regs with wide := setWord s.regs.wide k.val d }
  | .f i k => s.writeRegs { s.regs with f := s.regs.f.set i (setWord s.regs.f[i] k.val d) }
  | .scfg _ => s
  | .coef _ _ _ => s
  | .reserved => s
  | .busError => s

/-! ### Inputs -/

/-- A response is sent: the newest of the list (R67). -/
def State.respond (s : State) (r : BusResp) : State := { s with responses := r :: s.responses }

/-- One bus access, serviced and answered. A write's response carries data 0 (R67). -/
def State.busAccess (s : State) : BusReq → State
  | .read a => s.respond (s.busRead a)
  | .write a d => (s.writeTarget (target a) d).respond { rdata := 0, err := target a == .busError }

/-- The random source offers a word; it waits until the block takes it (R66). -/
def State.offerWord (s : State) (w : RandWord) : State := { s with rnd := s.rnd ++ [w] }

/-- rst: the reset of R171; a request outstanding then is abandoned and gets no response (R171, R172; DEDUCED, log entry
12). -/
def State.hardReset (s : State) (_outstanding : Option BusReq) : State := s.resetBlock

end Sys2Proof.Machine
end

