-- ==== Sys2Proof/Machine/Engine.lean ====
section
/-! DEFINITION. The command engine's cycle (10_state.md R32, 70_reset_and_hazards.md R174 to R179) and the random port's
ready signal (20_memory.md R66). -/

namespace Sys2Proof.Machine

open Config

/-- How many random words the command word needs in all: none for an illegal one (R116). -/
def wordDraws (w : Word32) : Nat :=
  match decode w with
  | .ok i => drawsNeeded i
  | .error _ => 0

/-- The random port's rnd_ready: the command in flight still needs a draw (R66). -/
def State.rndReady (s : State) : Bool :=
  match s.inFlight with
  | none => false
  | some fl => decide (fl.draws.length < wordDraws fl.cmd)

/-- The execution of the latched command, from its decoding to its commit: ILLEGAL_CMD for an illegal word, else the
command's own meaning (R76, R152, R174). -/
def State.runLatched (s : State) (w : Word32) : Result :=
  match decode w with
  | .ok i => exec i s
  | .error _ => .next (s.commit (.error .illegalCmd))

/-- A stall of the random port: a draw is needed and rnd_valid is 0 (R66, R178). -/
def State.stalled (s : State) : Bool := s.rndReady && s.rnd.isEmpty

/-- The count of this cycle toward LATENCY(op): a stall adds nothing, so its time adds to the command's latency (R66,
R174, R178). -/
def State.countCycle (s : State) (fl : InFlight) : State :=
  { s with inFlight := some { fl with elapsed := if s.stalled then fl.elapsed else fl.elapsed + 1 } }

/-- The random port in one cycle: at most one word transfers, if the command needs one and one is offered (R66). -/
def State.takeOneDraw (s : State) (fl : InFlight) : State :=
  s.takeDraws (min (wordDraws fl.cmd) (fl.draws.length + 1)) fl.cmd

/-- One cycle of the engine. An idle block waits (R164). A busy one counts the cycle; before LATENCY(op) it only serves
the random port, and from then on it runs the command to its commit, or to its wait for random words (R165, R174, R178;
DESIGN CHOICE, log entry 9: what counts as a cycle). -/
def State.engineCycle (s : State) : Result :=
  match s.inFlight with
  | none => .next s
  | some fl =>
    if fl.elapsed + 1 < s.params.latency (opcOf fl.cmd) then .next ((s.countCycle fl).takeOneDraw fl)
    else (s.countCycle fl).runLatched fl.cmd

/-- One input. -/
def State.handle (s : State) : Input → Result
  | .bus r => .next (s.busAccess r)
  | .offer w => .next (s.offerWord w)
  | .rst r => .next (s.hardReset r)
  | .cycle => s.engineCycle

/-- The state that `withFetchWord` of Step.lean gives: the command word as an idle block accepts it, with all of its
LATENCY but the last cycle gone by, and that cycle next. -/
def State.placeCommand (s : State) (w : Word32) : State :=
  { s with
    inFlight := some { s.newFlight w with elapsed := s.params.latency (opcOf w) - 1 }
    env := .cycle :: s.env }

end Sys2Proof.Machine
end

