-- ==== Sys2Proof/Machine/Step.lean ====
section
/-! DEFINITION. One step: the next input of `State.env`; with none scheduled, a cycle of the command engine. -/

namespace Sys2Proof.Machine

/-- One step of the block (70_reset_and_hazards.md R174 to R177; DESIGN CHOICE, log entry 5). -/
def step (s : State) : Host.Outcome State Fault Refusal :=
  match s.env with
  | [] => s.engineCycle
  | e :: rest => State.handle { s with env := rest } e

/-- The state in which the next step runs the command word of the `nbits` bits `w`: the block fetches nothing (R33,
R65), so the word is placed as the accepted command with its last cycle next (log entry 4). -/
def State.withFetchWord (s : State) (nbits w : Nat) : State :=
  s.placeCommand (BitVec.ofNat 32 (w % 2 ^ nbits))

end Sys2Proof.Machine
end

