-- ==== Sys2Proof/Machine/HostProgram.lean ====
section
/-! DEFINITION. The host's pseudo-instructions as the bus accesses they stand for (30_encoding.md R79). They are the
host's conventions: the block sees only the accesses. -/

namespace Sys2Proof.Machine

/-- The address of F[i] word k (20_memory.md R54). -/
def fieldAddr (i : Reg) (k : Nat) : Addr := BitVec.ofNat 12 (0x100 + 0x10 * i.val + 4 * k)

/-- The address of WIDE word k (R54). -/
def wideAddr (k : Nat) : Addr := BitVec.ofNat 12 (0x20 + 4 * k)

/-- `WRF Fi, v`. -/
def hostWriteField (i : Reg) (v : FieldWord) : List BusReq :=
  [.write (fieldAddr i 0) (wordOf v 0), .write (fieldAddr i 1) (wordOf v 1), .write (fieldAddr i 2) (wordOf v 2)]

/-- `RDF Fi`: the three reads. -/
def hostReadField (i : Reg) : List BusReq :=
  [.read (fieldAddr i 0), .read (fieldAddr i 1), .read (fieldAddr i 2)]

/-- `RDF Fi -> x`: the value of the three words, `{w2[24:0], w1, w0}`. -/
def fieldOfWords (w0 w1 w2 : Word32) : FieldWord := w2.setWidth 25 ++ w1 ++ w0

/-- `WRW v`. -/
def hostWriteWide (v : WideWord) : List BusReq :=
  [.write (wideAddr 0) (wordOf v 0), .write (wideAddr 1) (wordOf v 1), .write (wideAddr 2) (wordOf v 2),
    .write (wideAddr 3) (wordOf v 3), .write (wideAddr 4) (wordOf v 4), .write (wideAddr 5) (wordOf v 5)]

/-- `CMD c`. -/
def hostCommand (i : Instr) : List BusReq := [.write 0x004 (encode i)]

/-- `RDS`. -/
def hostReadStatus : List BusReq := [.read 0x008]

/-- One poll of `WAIT` ends the loop when the STATUS word it read has bit 0 clear. -/
def pollEnds (r : BusResp) : Bool := !r.rdata.getLsbD 0

/-- `EXEC c` with the WAIT loop reading STATUS `n` times; any n is possible (70_reset_and_hazards.md R177). -/
def hostExec (i : Instr) (n : Nat) : List BusReq := hostCommand i ++ List.replicate n (.read 0x008)

/-- `ECLR`. -/
def hostErrorClear : List BusReq := [.write 0x00C 0x2]

/-- `SRST`. -/
def hostSoftReset : List BusReq := [.write 0x00C 0x1]

/-- Bus accesses in the host's order, none of them waiting on the engine (20_memory.md R63). -/
def busAccesses (s : State) (rs : List BusReq) : State := rs.foldl State.busAccess s

end Sys2Proof.Machine
end

