-- ==== Sys2Proof/Safety.lean ====
section
/-! DEFINITION. What a good state is (10_state.md R22 to R32): the slot invariant, the coherence of STATUS, and what holds
of the command in flight; and the terms the statements use for what a step leaves alone. -/

namespace Sys2Proof.Machine

open Config

/-- The slot invariant of R24, kind by kind. -/
def Slot.wf (sl : Slot) : Bool :=
  match sl.kind with
  | .none =>
    sl.width == 0 && sl.coef[0] == 0 && sl.coef[1] == 0 && sl.coef[2] == 0 && sl.coef[3] == 0
  | .mshift =>
    decide (1 ≤ sl.width.toNat ∧ sl.width.toNat ≤ 63) && decide (sl.coef[0].toNat % 2 = 1)
      && decide (sl.coef[0].toNat < 2 ^ 64) && sl.coef[1] == 0 && sl.coef[2] == 0 && sl.coef[3] == 0
  | .mmodp =>
    decide (1 ≤ sl.width.toNat ∧ sl.width.toNat ≤ 64) && decide (sl.coef[0].toNat < p)
      && decide (sl.coef[1].toNat < p) && sl.coef[2] == 0 && sl.coef[3] == 0
  | .poly3 =>
    decide (1 ≤ sl.width.toNat ∧ sl.width.toNat ≤ 64) && decide (sl.coef[0].toNat < p)
      && decide (sl.coef[1].toNat < p) && decide (sl.coef[2].toNat < p) && decide (sl.coef[3].toNat < p)

/-- ERRCODE is 0 exactly when ERR is 0 (R27). -/
def Status.wf (st : Status) : Bool := st.err == (st.errcode != .none)

/-- The invariant of the whole state. -/
structure State.Inv (s : State) : Prop where
  /-- Every slot satisfies R24's table. -/
  slots : ∀ n : Fin 4, s.regs.slots[n].wf = true
  /-- R27. -/
  status : s.status.wf = true
  /-- While a command is in flight the registers are as it found them (R61, R62, R174). -/
  snapshot : ∀ fl, s.inFlight = some fl → fl.snapshot = s.regs
  /-- It holds no more draws than it needs, each below p (R32, R99, R116). -/
  draws : ∀ fl, s.inFlight = some fl → fl.draws.length ≤ wordDraws fl.cmd ∧ ∀ v ∈ fl.draws, v.toNat < p

/-- The next step is the command engine's: a cycle is scheduled, or nothing is. -/
def State.engineNext (s : State) : Bool :=
  match s.env with
  | [] => true
  | .cycle :: _ => true
  | .bus _ :: _ => false
  | .offer _ :: _ => false
  | .rst _ :: _ => false

/-- The state that the engine's cycle hands to the command in flight `fl`: the input is used up, and the cycle counted
unless a draw is needed and no word is offered (R178). -/
def State.counted (s : State) (fl : InFlight) : State :=
  { s with
    env := s.env.tail
    inFlight := some { fl with
      elapsed := if fl.draws.length < wordDraws fl.cmd ∧ s.rnd = [] then fl.elapsed else fl.elapsed + 1 } }

/-! ### What the statements say a command leaves -/

/-- A legal slot number as a SLOT field. -/
def slotField (n : Fin 4) : SlotField := ⟨n.val, Nat.lt_trans n.isLt (by decide)⟩

/-- `s` with BUSY fallen and nothing else changed: what a command that writes nothing leaves. -/
def State.completed (s : State) : State := { s with inFlight := none }

/-- `s` with BUSY fallen and F[d] holding v, and nothing else changed. -/
def State.completedF (s : State) (d : Reg) (v : Nat) : State :=
  { s with regs := { s.regs with f := s.regs.f.set d (BitVec.ofNat 89 v) }, inFlight := none }

/-- `s` with BUSY fallen and slot n holding a kind, a width and four coefficients, and nothing else changed. -/
def State.completedSlot (s : State) (n : Fin 4) (k : Kind) (w c0 c1 c2 c3 : Nat) : State :=
  { s with
    regs := { s.regs with
      slots := s.regs.slots.set n
        { kind := k
          width := BitVec.ofNat 7 w
          coef := #v[BitVec.ofNat 89 c0, BitVec.ofNat 89 c1, BitVec.ofNat 89 c2, BitVec.ofNat 89 c3] } }
    inFlight := none }

/-- `s` with BUSY fallen and an error recorded by R158's rule, and nothing else changed (R160). -/
def State.completedError (s : State) (c : ErrCode) : State :=
  { s with
    status := if s.status.err then s.status else { s.status with err := true, errcode := c }
    inFlight := none }

/-- The row of the opcode map with this mask and match decodes as `build` says (R74); for an opcode that uses SLOT, where
SLOT is legal, and the word is illegal where it is not (R76 case 4); and every other word with the row's OPC is illegal
(R76 cases 2 and 3). -/
def RowDecodes (mask pattern : Word32) (usesSlot : Bool) (build : Word32 → Instr) : Prop :=
  ∀ w : Word32,
    (w &&& mask = pattern →
      ((usesSlot = false ∨ (slotOf w).toNat < 4) → decode w = .ok (build w)) ∧
      ((usesSlot = true ∧ 4 ≤ (slotOf w).toNat) → decode w = .error .slotRange)) ∧
    (opcOf w = opcOf pattern → w &&& mask ≠ pattern → ∃ e, decode w = .error e)

/-- The reserved addresses of the register map, `n` aligned and below 0x400 (R54). -/
abbrev ReservedAddr (n : Nat) : Prop :=
  0x014 ≤ n ∧ n < 0x020 ∨ 0x038 ≤ n ∧ n < 0x100 ∨ 0x100 ≤ n ∧ n < 0x200 ∧ n % 0x10 = 0xC ∨
    0x200 ≤ n ∧ (0 < n % 0x80 ∧ n % 0x80 < 0x10 ∨ 0x50 ≤ n % 0x80 ∨ n % 0x10 = 0xC)

/-- Every line of R35's table. -/
def State.AtResetValues (t : State) : Prop :=
  (∀ i : Fin 16, t.regs.f[i] = 0) ∧ t.regs.wide = 0 ∧
  (∀ n : Fin 4, t.regs.slots[n].kind = .none ∧ t.regs.slots[n].width = 0 ∧
    ∀ k : Fin 4, t.regs.slots[n].coef[k] = 0) ∧
  t.busy = false ∧ t.status.err = false ∧ t.status.sign = false ∧ t.status.errcode = .none ∧
  t.inFlight = none ∧ t.drawsHeld = [] ∧ t.rndReady = false ∧
  (t.busRead 0x000).rdata = 0x4D503839#32 ∧ (t.busRead 0x010).rdata.toNat = 0x59000410 + t.params.randBits * 2 ^ 16

/-- The 64-bit key in a field register, as a number (R130). -/
def State.keyNat (s : State) (a : Reg) : Nat := (s.src a).toNat % 2 ^ 64

/-- A register of HCFGP3's group, F[(a + k) mod 16], as a residue mod p (R73, R114). -/
def State.groupNat (s : State) (a : Reg) (k : Nat) : Nat := (s.src (Fin.ofNat 16 (a.val + k))).toNat % p

/-- A random word as a coefficient: its RAND_BITS bits as a number, mod p (R99). -/
def drawValue (c : Params) (w : RandWord) : Nat := (w.toNat % 2 ^ c.randBits) % p

/-- The slot a command's SLOT operand names, as it was at acceptance. -/
def State.slotAt (s : State) (n : Fin 4) : Slot := s.operands.slots[n]

/-- A slot's k-th coefficient as a number. -/
def Slot.coefNat (sl : Slot) (k : Fin 4) : Nat := sl.coef[k].toNat

/-- `(c3·x³ + c2·x² + c1·x + c0) mod p`, the value R131 gives g(x). -/
def polyValue (c0 c1 c2 c3 x : Nat) : Nat := (c3 * x ^ 3 + c2 * x ^ 2 + c1 * x + c0) % p

/-- g(x) of a POLY3 slot (R131, R134). -/
def Slot.gValue (sl : Slot) (x : Nat) : Nat :=
  polyValue (sl.coefNat 0) (sl.coefNat 1) (sl.coefNat 2) (sl.coefNat 3) x

end Sys2Proof.Machine
end

