-- ==== Sys2Proof/Certificates/Slice0/Obligations.lean ====
section
/-! DEFINITION. The statements for the provers, in the order of OBLIGATIONS.json. Each docstring names the rule of spec/ it
formalises. Equations `exec i s = .next (…)` are result, completion and frame at once: the record on the right says
what every field of the state holds. -/

open Sys2Proof Sys2Proof.Machine Sys2Proof.Config

/-! ### Encoding -/

/-- Words written out from R74 and R78, one or more a family, and one for each cause of illegality in R76. -/
def Obligations.SampleWordsDecode : Prop :=
  decode 0x00000000#32 = .ok .nop ∧
  decode 0x000040C1#32 = .ok (.fadd 3 0 1) ∧
  decode 0x00000143#32 = .ok (.fred 5) ∧
  decode 0x00080010#32 = .ok (.hclr 2) ∧
  decode 0x02040011#32 = .ok (.hcfgms 1 0 8) ∧
  decode 0x028C0014#32 = .ok (.hsketch 3 10) ∧
  decode 0x00002258#32 = .ok (.heval 9 8 0) ∧
  decode 0x00000005#32 = .error .opcode ∧
  decode 0x20000001#32 = .error .reserved ∧
  decode 0x00000403#32 = .error .unusedField ∧
  decode 0x00100018#32 = .error .slotRange

/-- R74, R78: every well-formed command, with every operand at every value its field admits, is decoded back from its
word. -/
def Obligations.DecodeOfEncode : Prop :=
  ∀ i : Instr, i.wf = true → decode (encode i) = .ok i

/-- R77: a word that decodes is the one word of the command it decodes to. -/
def Obligations.EncodeOfDecode : Prop :=
  ∀ (w : Word32) (i : Instr), decode w = .ok i → encode i = w ∧ i.wf = true

/-- R74, R76, R77: a word is legal exactly when it matches a row of the opcode map, with a legal SLOT if the row uses
SLOT, and no word matches two rows. -/
def Obligations.LegalWordsAreTheMapsRows : Prop :=
  (∀ w : Word32, (∃ i, decode w = .ok i) ↔
    ∃ o : Opcode, w &&& o.mask = o.pattern ∧ ((o.build w).slot?.isSome = true → (slotOf w).toNat < 4)) ∧
  ∀ (w : Word32) (o o' : Opcode), w &&& o.mask = o.pattern → w &&& o'.mask = o'.pattern → o = o'

/-! ### The command lifecycle -/

/-- R174: when the engine's cycle reaches LATENCY(op) and the latched word decodes to i, the step is exec of i, with the
input used up and the cycle counted, a stall of the random port left out (R178). -/
def Obligations.StepRunsDecodedCommand : Prop :=
  ∀ (s : State) (fl : InFlight) (i : Instr), s.engineNext = true → s.inFlight = some fl →
    s.params.latency (opcOf fl.cmd) ≤ fl.elapsed + 1 → decode fl.cmd = .ok i →
    step s = exec i (s.counted fl)

/-- The word placed by `withFetchWord` (log entry 4, the model's own) is run by the very next step, on the registers as
they stand; the cycle counts unless the command needs a word and none is offered. -/
def Obligations.PlacedWordRunsNext : Prop :=
  ∀ (s : State) (w : Nat) (i : Instr), decode (BitVec.ofNat 32 w) = .ok i →
    step (s.withFetchWord 32 w) =
      exec i { s with
        inFlight := some
          { cmd := BitVec.ofNat 32 w, snapshot := s.regs, draws := [],
            elapsed := s.params.latency (opcOf (BitVec.ofNat 32 w)) -
              (if 0 < drawsNeeded i ∧ s.rnd = [] then 1 else 0) } }

/-- R164, R66, R177, R178: what a cycle of the engine does short of the commit. An idle block's does nothing. One in which
a draw is needed and no word is offered does not count toward LATENCY(op) and does nothing, before LATENCY(op) and at it.
Any other cycle before LATENCY(op) counts, takes one word, the oldest offered, if a draw is needed, and leaves every
register and STATUS alone. -/
def Obligations.CycleBeforeLatencyOnlyDraws : Prop :=
  (∀ s : State, s.engineNext = true → s.inFlight = none → step s = .next { s with env := s.env.tail }) ∧
  ∀ (s : State) (fl : InFlight), s.engineNext = true → s.inFlight = some fl →
    (fl.draws.length < wordDraws fl.cmd → s.rnd = [] → step s = .next { s with env := s.env.tail }) ∧
    (fl.elapsed + 1 < s.params.latency (opcOf fl.cmd) → wordDraws fl.cmd ≤ fl.draws.length →
      step s = .next { s with env := s.env.tail, inFlight := some { fl with elapsed := fl.elapsed + 1 } }) ∧
    (fl.elapsed + 1 < s.params.latency (opcOf fl.cmd) → fl.draws.length < wordDraws fl.cmd →
      ∀ (w : RandWord) (rest : List RandWord), s.rnd = w :: rest →
        step s = .next { s with
          env := s.env.tail
          rnd := rest
          inFlight := some { fl with
            elapsed := fl.elapsed + 1
            draws := fl.draws ++ [BitVec.ofNat 89 (drawValue s.params w)] } })

/-- R152, with R76: each of the four causes makes an accepted word illegal. Its cycles before LATENCY(op) only count, and
its commit records ILLEGAL_CMD; no register, slot or draw is touched. -/
def Obligations.IllegalWordRecordsOnlyIllegalCmd : Prop :=
  ∀ (s : State) (fl : InFlight), s.engineNext = true → s.inFlight = some fl →
    ((∀ o : Opcode, opcOf fl.cmd ≠ o.code) ∨
      rsvOf fl.cmd ≠ 0 ∨
      (∃ o : Opcode, opcOf fl.cmd = o.code ∧ fl.cmd &&& o.mask ≠ o.pattern) ∨
      ∃ o : Opcode, opcOf fl.cmd = o.code ∧ (o.build fl.cmd).slot?.isSome = true ∧ 4 ≤ (slotOf fl.cmd).toNat) →
    (fl.elapsed + 1 < s.params.latency (opcOf fl.cmd) →
      step s = .next { s with env := s.env.tail, inFlight := some { fl with elapsed := fl.elapsed + 1 } }) ∧
    (s.params.latency (opcOf fl.cmd) ≤ fl.elapsed + 1 →
      step s = .next (State.completedError { s with env := s.env.tail } .illegalCmd))

/-- R29, R155, with R174's acceptance: a CMD write to an idle block latches the word, snapshots F, WIDE and the slots and
raises BUSY; to a busy one it is dropped and records CMD_OVERRUN, and the command in flight goes on. CMD reads 0 always. -/
def Obligations.CmdWriteAcceptsOrOverruns : Prop :=
  (∀ s : State, s.busRead 0x004 = { rdata := 0, err := false }) ∧
  ∀ (s : State) (w : Word32) (rest : List Input), s.env = .bus (.write 0x004 w) :: rest →
    (s.inFlight = none →
      step s = .next { s with
        env := rest
        inFlight := some { cmd := w, snapshot := s.regs, draws := [], elapsed := 0 }
        responses := { rdata := 0, err := false } :: s.responses }) ∧
    (s.inFlight ≠ none →
      step s = .next { s with
        env := rest
        status := if s.status.err then s.status else { s.status with err := true, errcode := .cmdOverrun }
        responses := { rdata := 0, err := false } :: s.responses })

/-- R179: a command that needs no draw commits within LATENCY(op) cycles. With the clock running and nothing else
happening, the run from anywhere inside its latency ends in its own execution, at the LATENCY(op)-th cycle. -/
def Obligations.NoDrawCommandCommitsAtItsLatency : Prop :=
  ∀ (s : State) (fl : InFlight) (i : Instr), s.env = [] → s.inFlight = some fl → decode fl.cmd = .ok i →
    drawsNeeded i = 0 → fl.elapsed < s.params.latency (opcOf fl.cmd) →
    Host.Core.run Sys2Proof.core (s.params.latency (opcOf fl.cmd) - fl.elapsed) s =
      exec i { s with inFlight := some { fl with elapsed := s.params.latency (opcOf fl.cmd) } }

/-- R165, R178: a command that needs a word, with none offered and none ever coming, never commits. However long the clock
runs, nothing changes: BUSY stays 1, and the time is not counted toward LATENCY(op), so it adds to the latency. -/
def Obligations.StarvedCommandHangs : Prop :=
  ∀ (s : State) (fl : InFlight), s.env = [] → s.rnd = [] → s.inFlight = some fl →
    fl.draws.length < wordDraws fl.cmd →
    s.busy = true ∧ ∀ n : Nat, Host.Core.run Sys2Proof.core n s = .next s

/-! ### Field arithmetic -/

/-- R90: Fold as the rule writes it; it keeps the residue mod p; and it is a congruence, not an equality. -/
def Obligations.FoldKeepsResidue : Prop :=
  (∀ y : Nat, fold y = (y &&& (2 ^ 89 - 1)) + y / 2 ^ 89 ∧ fold y % p = y % p) ∧
  ∃ y : Nat, y < 2 ^ 178 ∧ fold y ≠ y % p

/-- R92: for y < 2^178, Reduce(y) = y mod p and Reduce(y) < p; the bounds on the two folds; y2 < p for a product of two
values in [1, p); y2 = p for a non-zero multiple of p. -/
def Obligations.ReduceIsModP : Prop :=
  (∀ y : Nat, y < 2 ^ 178 →
    fold y ≤ 2 ^ 90 - 2 ∧ fold (fold y) ≤ p ∧ (reduce y).toNat = y % p ∧ (reduce y).toNat < p ∧
      (y ≠ 0 → y % p = 0 → fold (fold y) = p)) ∧
  ∀ a b : Nat, 1 ≤ a → a < p → 1 ≤ b → b < p → fold (fold (a * b)) < p

/-- R131: Poly3(c, x) = (c3·x³ + c2·x² + c1·x + c0) mod p. -/
def Obligations.HornerIsThePolynomial : Prop :=
  ∀ (co : Vector FieldWord 4) (x : Key),
    (poly3 co x).toNat = polyValue co[0].toNat co[1].toNat co[2].toNat co[3].toNat x.toNat

/-- R93: NOP's word is 0x00000000, every other word with its OPC is illegal, and it changes nothing but BUSY. -/
def Obligations.NopOnlyCompletes : Prop :=
  RowDecodes 0xFFFFFFFF#32 0x00000000#32 false (fun _ => .nop) ∧
  ∀ s : State, exec .nop s = .next s.completed

/-- R94: FADD's encoding, and F[d] = (F[a] + F[b]) mod p with nothing else changed. -/
def Obligations.FaddAddsModP : Prop :=
  RowDecodes 0xFFFC003F#32 0x00000001#32 false
    (fun w => .fadd (rdOf w).toFin (raOf w).toFin (rbOf w).toFin) ∧
  ∀ (s : State) (d a b : Reg),
    exec (.fadd d a b) s = .next (s.completedF d (((s.src a).toNat + (s.src b).toNat) % p))

/-- R95: FMUL's encoding, and F[d] = (F[a] · F[b]) mod p with nothing else changed. -/
def Obligations.FmulMultipliesModP : Prop :=
  RowDecodes 0xFFFC003F#32 0x00000002#32 false
    (fun w => .fmul (rdOf w).toFin (raOf w).toFin (rbOf w).toFin) ∧
  ∀ (s : State) (d a b : Reg),
    exec (.fmul d a b) s = .next (s.completedF d (((s.src a).toNat * (s.src b).toNat) % p))

/-- R96: FRED's encoding, and F[d] = WIDE mod p with nothing else changed, WIDE included. -/
def Obligations.FredReducesWide : Prop :=
  RowDecodes 0xFFFFFC3F#32 0x00000003#32 false (fun w => .fred (rdOf w).toFin) ∧
  ∀ (s : State) (d : Reg), exec (.fred d) s = .next (s.completedF d (s.operands.wide.toNat % p))

/-- R97, R99: FRAND's encoding; with one word, held already or taken from the port now, F[d] is its RAND_BITS bits mod p,
exactly the words not yet held leave the port, and nothing else changes; with no word held or offered it waits. -/
def Obligations.FrandWritesOneDraw : Prop :=
  RowDecodes 0xFFFFFC3F#32 0x00000004#32 false (fun w => .frand (rdOf w).toFin) ∧
  ∀ (s : State) (d : Reg),
    (∀ (ws rest : List RandWord) (v : Nat), s.rnd = ws ++ rest →
      s.drawsHeld ++ (ws.map fun w => BitVec.ofNat 89 (drawValue s.params w)) = [BitVec.ofNat 89 v] →
      exec (.frand d) s = .next (State.completedF { s with rnd := rest } d v)) ∧
    (s.drawsHeld = [] → s.rnd = [] →
      exec (.frand d) s = .next { s with inFlight := some (s.flightOr (encode (.frand d))) })

/-- R116, R165: FRAND or HSKETCH with too few words takes those offered, oldest first, and waits with BUSY 1, all else
unchanged. That one step takes several words is the model's choice (log entry 3). -/
def Obligations.DrawCommandWaitsForWords : Prop :=
  ∀ (s : State) (i : Instr), s.drawsHeld.length + s.rnd.length < drawsNeeded i →
    exec i s = .next { s with
      rnd := []
      inFlight := some { s.flightOr (encode i) with
        draws := s.drawsHeld ++ s.rnd.map fun w => BitVec.ofNat 89 (drawValue s.params w) } }

/-! ### Slot construction -/

/-- R111: HCLR's encoding, and the slot becomes NONE with width and coefficients 0, nothing else changed; a HEVAL or HGVAL
of the slot, run on that state as if accepted there (the model's choice, log entry 6), records UNCONFIGURED. -/
def Obligations.HclrEmptiesSlot : Prop :=
  RowDecodes 0xFFC3FFFF#32 0x00000010#32 true (fun w => .hclr (slotOf w).toFin) ∧
  ∀ (s : State) (n : Fin 4), exec (.hclr (slotField n)) s = .next (s.completedSlot n .none 0 0 0 0 0) ∧
    ∀ d a : Reg,
      exec (.heval d a (slotField n)) (s.completedSlot n .none 0 0 0 0 0) =
        .next ((s.completedSlot n .none 0 0 0 0 0).completedError .unconfigured) ∧
      exec (.hgval d a (slotField n)) (s.completedSlot n .none 0 0 0 0 0) =
        .next ((s.completedSlot n .none 0 0 0 0 0).completedError .unconfigured)

/-- R112: HCFGMS's encoding; for 1 ≤ W ≤ 63 the slot is MSHIFT with a = F[a][63:0] with bit 0 set; any other W records
INVALID_PARAMETER and leaves the slot. -/
def Obligations.HcfgmsBuildsMultiplyShift : Prop :=
  RowDecodes 0xE003C3FF#32 0x00000011#32 true
    (fun w => .hcfgms (slotOf w).toFin (raOf w).toFin (widthOf w).toFin) ∧
  ∀ (s : State) (n : Fin 4) (a : Reg) (w : Width),
    (1 ≤ w.val ∧ w.val ≤ 63 →
      exec (.hcfgms (slotField n) a w) s = .next (s.completedSlot n .mshift w.val
        (if s.keyNat a % 2 = 1 then s.keyNat a else s.keyNat a + 1) 0 0 0)) ∧
    (¬(1 ≤ w.val ∧ w.val ≤ 63) →
      exec (.hcfgms (slotField n) a w) s = .next (s.completedError .invalidParameter))

/-- R113: HCFGMP's encoding; for 1 ≤ W ≤ 64 the slot is MMODP with both coefficients mod p; any other W records
INVALID_PARAMETER and leaves the slot. -/
def Obligations.HcfgmpBuildsMultiplyModP : Prop :=
  RowDecodes 0xE00003FF#32 0x00000012#32 true
    (fun w => .hcfgmp (slotOf w).toFin (raOf w).toFin (rbOf w).toFin (widthOf w).toFin) ∧
  ∀ (s : State) (n : Fin 4) (a b : Reg) (w : Width),
    (1 ≤ w.val ∧ w.val ≤ 64 →
      exec (.hcfgmp (slotField n) a b w) s =
        .next (s.completedSlot n .mmodp w.val ((s.src a).toNat % p) ((s.src b).toNat % p) 0 0)) ∧
    (¬(1 ≤ w.val ∧ w.val ≤ 64) →
      exec (.hcfgmp (slotField n) a b w) s = .next (s.completedError .invalidParameter))

/-- R114: HCFGP3's encoding; for 1 ≤ W ≤ 64 the slot is POLY3 with a_k = F[(a + k) mod 16] mod p; any other W records
INVALID_PARAMETER and leaves the slot. -/
def Obligations.HcfgpBuildsPolynomial : Prop :=
  RowDecodes 0xE003C3FF#32 0x00000013#32 true
    (fun w => .hcfgp3 (slotOf w).toFin (raOf w).toFin (widthOf w).toFin) ∧
  ∀ (s : State) (n : Fin 4) (a : Reg) (w : Width),
    (1 ≤ w.val ∧ w.val ≤ 64 →
      exec (.hcfgp3 (slotField n) a w) s = .next (s.completedSlot n .poly3 w.val
        (s.groupNat a 0) (s.groupNat a 1) (s.groupNat a 2) (s.groupNat a 3))) ∧
    (¬(1 ≤ w.val ∧ w.val ≤ 64) →
      exec (.hcfgp3 (slotField n) a w) s = .next (s.completedError .invalidParameter))

/-- R115, R116: HSKETCH's encoding; for 1 ≤ W ≤ 64 and four words, held already or taken from the port now, the slot is
POLY3 with those draws as a0 to a3 in their order, and exactly the words not yet held leave the port; with fewer words it
waits, BUSY 1 and the slot unchanged; any other W records INVALID_PARAMETER, takes no word and leaves the slot.
That one step takes several words is the model's choice (log entry 3). -/
def Obligations.HsketchBuildsFromFourDraws : Prop :=
  RowDecodes 0xE003FFFF#32 0x00000014#32 true (fun w => .hsketch (slotOf w).toFin (widthOf w).toFin) ∧
  ∀ (s : State) (n : Fin 4) (w : Width),
    (1 ≤ w.val ∧ w.val ≤ 64 →
      (∀ (ws rest : List RandWord) (c0 c1 c2 c3 : Nat), s.rnd = ws ++ rest →
        (s.drawsHeld ++ (ws.map fun w => BitVec.ofNat 89 (drawValue s.params w)) =
          [BitVec.ofNat 89 c0, BitVec.ofNat 89 c1, BitVec.ofNat 89 c2, BitVec.ofNat 89 c3]) →
        exec (.hsketch (slotField n) w) s =
          .next (State.completedSlot { s with rnd := rest } n .poly3 w.val c0 c1 c2 c3)) ∧
      (s.drawsHeld.length + s.rnd.length < 4 →
        ∃ t : State, exec (.hsketch (slotField n) w) s = .next t ∧ t.busy = true ∧ t.regs = s.regs ∧
          t.status = s.status)) ∧
    (¬(1 ≤ w.val ∧ w.val ≤ 64) →
      exec (.hsketch (slotField n) w) s = .next (s.completedError .invalidParameter))

/-- R115: "The result is a POLY3 slot that cannot be told apart from one HCFGP3 builds with the same coefficients." That
HSKETCH takes the four words in one step is the model's choice (log entry 3); draws already held are left to
HsketchBuildsFromFourDraws. -/
def Obligations.SketchSlotEqualsGivenPolynomial : Prop :=
  ∀ (s : State) (n : Fin 4) (a : Reg) (w : Width) (w0 w1 w2 w3 : RandWord) (rest : List RandWord),
    1 ≤ w.val ∧ w.val ≤ 64 → s.drawsHeld = [] → s.rnd = w0 :: w1 :: w2 :: w3 :: rest →
    drawValue s.params w0 = s.groupNat a 0 → drawValue s.params w1 = s.groupNat a 1 →
    drawValue s.params w2 = s.groupNat a 2 → drawValue s.params w3 = s.groupNat a 3 →
    ∃ t t' : State, exec (.hsketch (slotField n) w) s = .next t ∧ exec (.hcfgp3 (slotField n) a w) s = .next t' ∧
      t.regs = t'.regs ∧ t.status = t'.status

/-- R76 case 4, R152: exec of a command whose SLOT names no slot records ILLEGAL_CMD and does nothing else. -/
def Obligations.MissingSlotRecordsOnlyIllegalCmd : Prop :=
  ∀ (s : State) (i : Instr) (n : SlotField), i.slot? = some n → 4 ≤ n.val →
    exec i s = .next (s.completedError .illegalCmd)

/-! ### Hash evaluation -/

/-- R135 with R130 to R134: HEVAL's encoding; h(x) of each kind in F[d]; SIGN is bit 88 of g(x) for a POLY3 slot and 0 for
the others; a NONE slot records UNCONFIGURED and leaves F[d] and SIGN. For slots outside R24's table the values are the
model's choice (log entry 10). -/
def Obligations.HevalWritesHashAndSign : Prop :=
  RowDecodes 0xFFC3C03F#32 0x00000018#32 true
    (fun w => .heval (rdOf w).toFin (raOf w).toFin (slotOf w).toFin) ∧
  ∀ (s : State) (d a : Reg) (n : Fin 4),
    ((s.slotAt n).kind = .mshift →
      exec (.heval d a (slotField n)) s =
        .next (State.completedF { s with status := { s.status with sign := false } } d
          ((((s.slotAt n).coefNat 0 % 2 ^ 64) * s.keyNat a) % 2 ^ 64 / 2 ^ (64 - (s.slotAt n).width.toNat)))) ∧
    ((s.slotAt n).kind = .mmodp →
      exec (.heval d a (slotField n)) s =
        .next (State.completedF { s with status := { s.status with sign := false } } d
          ((((s.slotAt n).coefNat 0 * s.keyNat a + (s.slotAt n).coefNat 1) % p) % 2 ^ (s.slotAt n).width.toNat))) ∧
    ((s.slotAt n).kind = .poly3 →
      exec (.heval d a (slotField n)) s =
        .next (State.completedF
          { s with status := { s.status with sign := decide ((s.slotAt n).gValue (s.keyNat a) / 2 ^ 88 % 2 = 1) } } d
          ((s.slotAt n).gValue (s.keyNat a) % 2 ^ (s.slotAt n).width.toNat))) ∧
    ((s.slotAt n).kind = .none →
      exec (.heval d a (slotField n)) s = .next (s.completedError .unconfigured))

/-- R136 with R130 to R134: HGVAL's encoding; the value before truncation of each kind in F[d], SIGN unchanged, whatever
the slot's width; a NONE slot records UNCONFIGURED and leaves F[d]. For slots outside R24's table the values are the
model's choice (log entry 10). -/
def Obligations.HgvalWritesRawValue : Prop :=
  RowDecodes 0xFFC3C03F#32 0x00000019#32 true
    (fun w => .hgval (rdOf w).toFin (raOf w).toFin (slotOf w).toFin) ∧
  ∀ (s : State) (d a : Reg) (n : Fin 4),
    ((s.slotAt n).kind = .mshift →
      exec (.hgval d a (slotField n)) s =
        .next (s.completedF d ((((s.slotAt n).coefNat 0 % 2 ^ 64) * s.keyNat a) % 2 ^ 64))) ∧
    ((s.slotAt n).kind = .mmodp →
      exec (.hgval d a (slotField n)) s =
        .next (s.completedF d (((s.slotAt n).coefNat 0 * s.keyNat a + (s.slotAt n).coefNat 1) % p))) ∧
    ((s.slotAt n).kind = .poly3 →
      exec (.hgval d a (slotField n)) s = .next (s.completedF d ((s.slotAt n).gValue (s.keyNat a)))) ∧
    ((s.slotAt n).kind = .none →
      exec (.hgval d a (slotField n)) s = .next (s.completedError .unconfigured))

/-- R137: on a slot that satisfies R24's invariant, HEVAL writes a value below 2^width and HGVAL one below p (MMODP, POLY3)
or 2^64 (MSHIFT); SIGN = 1 implies 2^88 ≤ g(x) ≤ p − 1, g(x) being what HGVAL writes. -/
def Obligations.HashOutputsAreInRange : Prop :=
  ∀ (s : State) (d a : Reg) (n : Fin 4), (s.slotAt n).wf = true → (s.slotAt n).kind ≠ .none →
    ∃ t t' : State, exec (.heval d a (slotField n)) s = .next t ∧ exec (.hgval d a (slotField n)) s = .next t' ∧
      t.regs.f[d].toNat < 2 ^ (s.slotAt n).width.toNat ∧
      ((s.slotAt n).kind = .mshift → t'.regs.f[d].toNat < 2 ^ 64 ∧ t.regs.f[d].toNat < 2 ^ 63) ∧
      ((s.slotAt n).kind ≠ .mshift → t'.regs.f[d].toNat < p) ∧
      (t.status.sign = true → 2 ^ 88 ≤ t'.regs.f[d].toNat ∧ t'.regs.f[d].toNat ≤ p - 1)

/-! ### Errors -/

/-- R27: the first error wins and a later one changes nothing; only a reset and ECLR clear ERR or change ERRCODE while
ERR = 1; and ERRCODE is 0 whenever ERR is 0, at reset and kept by every step. -/
def Obligations.FirstErrorStaysUntilCleared : Prop :=
  (∀ (s : State) (c : ErrCode),
    (s.status.err = false → s.recordError c = { s with status := { s.status with err := true, errcode := c } }) ∧
    (s.status.err = true → s.recordError c = s)) ∧
  (∀ s t : State, step s = .next t → s.status.err = true →
    (t.status.err = true ∧ t.status.errcode = s.status.errcode) ∨
    (∃ (o : Option BusReq) (rest : List Input), s.env = .rst o :: rest) ∨
    ∃ (v : Word32) (rest : List Input), s.env = .bus (.write 0x00C v) :: rest ∧
      (v.getLsbD 0 = true ∨ v.getLsbD 1 = true)) ∧
  (State.reset.status.err = false ∧ State.reset.status.errcode = .none) ∧
  ∀ s t : State, (s.status.err = false → s.status.errcode = .none) → step s = .next t →
    t.status.err = false → t.status.errcode = .none

/-- R150, R160: a command that records an error writes no field register, slot or SIGN, takes no draw, and completes. -/
def Obligations.ErroredCommandTouchesOnlyStatus : Prop :=
  ∀ (i : Instr) (s t : State), exec i s = .next t → t.status.errcode ≠ s.status.errcode →
    s.status.err = false ∧ t = { s with status := { s.status with err := true, errcode := t.status.errcode }, inFlight := none }

/-- R28: CTRL reads 0. A write with bit 0 is a soft reset; else bit 1 clears ERR and ERRCODE and nothing else, BUSY and a
command in flight included; bits 31:2 are ignored; and it acts whether or not the block is busy. -/
def Obligations.CtrlWriteResetsOrClears : Prop :=
  (∀ s : State, s.busRead 0x00C = { rdata := 0, err := false }) ∧
  ∀ (s : State) (v : Word32) (rest : List Input), s.env = .bus (.write 0x00C v) :: rest →
    (v.getLsbD 0 = true →
      step s = .next { s with
        env := rest, regs := Regs.reset, status := Status.reset, inFlight := none
        responses := { rdata := 0, err := false } :: s.responses }) ∧
    (v.getLsbD 0 = false → v.getLsbD 1 = true →
      step s = .next { s with
        env := rest, status := { s.status with err := false, errcode := .none }
        responses := { rdata := 0, err := false } :: s.responses }) ∧
    (v.getLsbD 0 = false → v.getLsbD 1 = false →
      step s = .next { s with env := rest, responses := { rdata := 0, err := false } :: s.responses })

/-- R150: the block never stops. Every step of every state answers a next state. -/
def Obligations.StepNeverStops : Prop :=
  ∀ s : State, ∃ t : State, step s = .next t

/-! ### Reset -/

/-- R35: after rst, after SRST, and in the state the model starts from, every piece of state has the table's value. -/
def Obligations.ResetLeavesEveryTableValue : Prop :=
  State.reset.AtResetValues ∧
  (∀ (s t : State) (o : Option BusReq) (rest : List Input), s.env = .rst o :: rest → step s = .next t →
    t.AtResetValues) ∧
  ∀ (s t : State) (v : Word32) (rest : List Input), s.env = .bus (.write 0x00C v) :: rest → v.getLsbD 0 = true →
    step s = .next t → t.AtResetValues

/-- R170 to R172: at an edge with rst = 1, whatever is in flight, every piece of state takes its value of R35 and the
command is aborted; no response is sent, also for a request that was outstanding; words not yet taken stay offered and
words taken are lost. -/
def Obligations.RstResetsTheBlock : Prop :=
  ∀ (s : State) (outstanding : Option BusReq) (rest : List Input), s.env = .rst outstanding :: rest →
    ∃ t : State, step s = .next t ∧ t.regs = State.reset.regs ∧ t.status = State.reset.status ∧
      t.inFlight = none ∧ t.busy = false ∧ t.rndReady = false ∧
      t.rnd = s.rnd ∧ t.responses = s.responses ∧ t.params = s.params ∧ t.env = rest

/-! ### The register bus -/

/-- R54: every address of the register map names what the map says. -/
def Obligations.RegisterMapAddresses : Prop :=
  target 0x000 = .id ∧ target 0x004 = .cmd ∧ target 0x008 = .status ∧ target 0x00C = .ctrl ∧ target 0x010 = .param ∧
  (∀ k : Fin 6, target (BitVec.ofNat 12 (0x020 + 4 * k.val)) = .wide k) ∧
  (∀ (i : Fin 16) (k : Fin 3), target (BitVec.ofNat 12 (0x100 + 0x10 * i.val + 4 * k.val)) = .f i k) ∧
  (∀ n : Fin 4, target (BitVec.ofNat 12 (0x200 + 0x80 * n.val)) = .scfg n) ∧
  ∀ (n k : Fin 4) (j : Fin 3),
    target (BitVec.ofNat 12 (0x200 + 0x80 * n.val + 0x10 * (k.val + 1) + 4 * j.val)) = .coef n k j

/-- R52, R53, R157: a misaligned access, or one to 0x400..0xFFF, answers with resp_err = 1 and data 0 and changes no state,
STATUS included, whether or not the block is busy. -/
def Obligations.BusErrorHasNoEffect : Prop :=
  ∀ (s : State) (a : Addr) (d : Word32), a.toNat % 4 ≠ 0 ∨ 0x400 ≤ a.toNat →
    s.busAccess (.read a) = { s with responses := { rdata := 0, err := true } :: s.responses } ∧
    s.busAccess (.write a d) = { s with responses := { rdata := 0, err := true } :: s.responses }

/-- R58: a write to ID, STATUS, PARAM or a slot's registers changes nothing, STATUS included, and is no error. -/
def Obligations.ReadOnlyWritesIgnored : Prop :=
  ∀ (s : State) (a : Addr) (d : Word32), a.toNat % 4 = 0 → a.toNat < 0x400 →
    (a = 0x000 ∨ a = 0x008 ∨ a = 0x010 ∨ 0x200 ≤ a.toNat ∧ ¬ReservedAddr a.toNat) →
    s.busAccess (.write a d) = { s with responses := { rdata := 0, err := false } :: s.responses }

/-- R57, R59: a reserved address reads 0 and ignores a write, and CMD and CTRL read 0, with no error and no effect. -/
def Obligations.ReservedAndWriteOnlyReadZero : Prop :=
  ∀ (s : State) (a : Addr), a.toNat % 4 = 0 → a.toNat < 0x400 →
    (a = 0x004 ∨ a = 0x00C ∨ ReservedAddr a.toNat →
      s.busAccess (.read a) = { s with responses := { rdata := 0, err := false } :: s.responses }) ∧
    (ReservedAddr a.toNat → ∀ d : Word32,
      s.busAccess (.write a d) = { s with responses := { rdata := 0, err := false } :: s.responses })

/-- R25: what STATUS reads as: bit 0 BUSY, bit 1 ERR, bit 2 SIGN, bits 11:8 ERRCODE, every other bit 0. -/
def Obligations.StatusReadsAsItsFields : Prop :=
  ∀ s : State, (s.busRead 0x008).err = false ∧
    (s.busRead 0x008).rdata.toNat =
      (if s.inFlight = none then 0 else 1) + (if s.status.err then 2 else 0) + (if s.status.sign then 4 else 0)
        + 0x100 * (match s.status.errcode with
          | .none => 0
          | .illegalCmd => 1
          | .invalidParameter => 2
          | .unconfigured => 3
          | .cmdOverrun => 4
          | .busyWrite => 5)

/-- R30, R31: ID and PARAM, and that no step, a reset included, changes what they read as. -/
def Obligations.IdAndParamAreConstant : Prop :=
  (∀ s : State, s.busRead 0x000 = { rdata := 0x4D503839#32, err := false } ∧ (s.busRead 0x010).err = false ∧
    (s.busRead 0x010).rdata.toNat = 0x59000410 + s.params.randBits * 2 ^ 16) ∧
  ∀ s t : State, step s = .next t → t.busRead 0x000 = s.busRead 0x000 ∧ t.busRead 0x010 = s.busRead 0x010

/-- R54: what a slot reads as: SCFG holds kind in bits 1:0 and width in bits 14:8; each coefficient is three words, the
lowest address first, bits 31:25 of the third reading 0. -/
def Obligations.SlotReadsBack : Prop :=
  ∀ (s : State) (n : Fin 4),
    (s.busRead (BitVec.ofNat 12 (0x200 + 0x80 * n.val))).rdata.toNat =
      (match s.regs.slots[n].kind with
        | .none => 0
        | .mshift => 1
        | .mmodp => 2
        | .poly3 => 3) + 0x100 * s.regs.slots[n].width.toNat ∧
    ∀ (k : Fin 4) (j : Fin 3),
      (s.busRead (BitVec.ofNat 12 (0x200 + 0x80 * n.val + 0x10 * (k.val + 1) + 4 * j.val))).rdata.toNat =
        s.regs.slots[n].coef[k].toNat / 2 ^ (32 * j.val) % 2 ^ 32

/-- R54 to R56: on an idle block, a write of F[i] word k reads back with the bits beyond bit 88 dropped, and every other
address reads as before. -/
def Obligations.FieldWordWriteReadsBack : Prop :=
  ∀ (s : State) (i : Reg) (k : Fin 3) (d : Word32), s.inFlight = none →
    (s.busAccess (.write (fieldAddr i k) d)).busRead (fieldAddr i k) =
      { rdata := if k = 2 then d &&& 0x01FFFFFF#32 else d, err := false } ∧
    ∀ a : Addr, a ≠ fieldAddr i k → (s.busAccess (.write (fieldAddr i k) d)).busRead a = s.busRead a

/-- R54 to R56: the same of WIDE word k, the bits beyond bit 177 dropped. -/
def Obligations.WideWordWriteReadsBack : Prop :=
  ∀ (s : State) (k : Fin 6) (d : Word32), s.inFlight = none →
    (s.busAccess (.write (wideAddr k) d)).busRead (wideAddr k) =
      { rdata := if k = 5 then d &&& 0x0003FFFF#32 else d, err := false } ∧
    ∀ a : Addr, a ≠ wideAddr k → (s.busAccess (.write (wideAddr k) d)).busRead a = s.busRead a

/-- R55, R79: WRF writes the whole field register and WRW the whole of WIDE, and nothing else but the responses. -/
def Obligations.HostWritesWholeRegisters : Prop :=
  ∀ s : State, s.inFlight = none →
    (∀ (i : Reg) (v : FieldWord), busAccesses s (hostWriteField i v) =
      { s with
        regs := { s.regs with f := s.regs.f.set i v }
        responses := List.replicate 3 { rdata := 0, err := false } ++ s.responses }) ∧
    ∀ v : WideWord, busAccesses s (hostWriteWide v) =
      { s with
        regs := { s.regs with wide := v }
        responses := List.replicate 6 { rdata := 0, err := false } ++ s.responses }

/-- R55, R79: RDF's three reads, busy or not, put together, are the field register. -/
def Obligations.HostReadsWholeRegister : Prop :=
  ∀ (s : State) (i : Reg),
    fieldOfWords (s.busRead (fieldAddr i 0)).rdata (s.busRead (fieldAddr i 1)).rdata (s.busRead (fieldAddr i 2)).rdata
      = s.regs.f[i]

/-- R60, R62: a read, busy or not, changes nothing; its response is appended. -/
def Obligations.ReadChangesNothing : Prop :=
  ∀ (s : State) (a : Addr) (rest : List Input), s.env = .bus (.read a) :: rest →
    step s = .next { s with env := rest, responses := s.busRead a :: s.responses }

/-- R62, R156: a write to any word of F or WIDE while busy is dropped and records BUSY_WRITE; the command in flight goes
on, and the access is no bus error. -/
def Obligations.BusyRegisterWriteIsDropped : Prop :=
  ∀ (s : State) (a : Addr) (d : Word32) (rest : List Input), s.env = .bus (.write a d) :: rest → s.inFlight ≠ none →
    a.toNat % 4 = 0 →
    (0x020 ≤ a.toNat ∧ a.toNat < 0x038 ∨ 0x100 ≤ a.toNat ∧ a.toNat < 0x200 ∧ a.toNat % 0x10 ≠ 0xC) →
    step s = .next { s with
      env := rest
      status := if s.status.err then s.status else { s.status with err := true, errcode := .busyWrite }
      responses := { rdata := 0, err := false } :: s.responses }

/-- R67: a step answers exactly one response where it services a bus access, the newest of the list, and none otherwise. -/
def Obligations.OneResponsePerAccess : Prop :=
  ∀ s t : State, step s = .next t →
    ((∃ (r : BusReq) (rest : List Input), s.env = .bus r :: rest) → ∃ x : BusResp, t.responses = x :: s.responses) ∧
    ((¬∃ (r : BusReq) (rest : List Input), s.env = .bus r :: rest) → t.responses = s.responses)

/-! ### Whole-machine rules -/

/-- The invariant of Safety.lean holds after reset (R24, R27, R35); its clauses on a command in flight ask nothing there. -/
def Obligations.InvariantAtReset : Prop := State.reset.Inv

/-- Every step keeps the invariant: R24's slot table, R27's ERR and ERRCODE, the snapshot equal to the registers while
busy (R61, R62, R174), and draws canonical and no more than needed (R99, R116). -/
def Obligations.StepKeepsInvariant : Prop :=
  ∀ s t : State, s.Inv → step s = .next t → t.Inv

/-- R20, R21, R22: a field register changes only where FADD, FMUL, FRED, FRAND, HEVAL or HGVAL in flight with RD = d runs,
at an idle block's host write to it, or at a reset; and only the host write can leave it holding p. The second part takes
the invariant, because FRAND writes a draw already held. -/
def Obligations.OnlyHostWritesNoncanonical : Prop :=
  (∀ (s t : State) (d : Reg), step s = .next t → t.regs.f[d] ≠ s.regs.f[d] →
    (s.engineNext = true ∧
      ∃ (fl : InFlight) (i : Instr), s.inFlight = some fl ∧ decode fl.cmd = .ok i ∧
        ((∃ a b : Reg, i = .fadd d a b ∨ i = .fmul d a b) ∨ i = .fred d ∨ i = .frand d ∨
          ∃ (a : Reg) (n : SlotField), i = .heval d a n ∨ i = .hgval d a n)) ∨
    (∃ (k : Fin 3) (v : Word32) (rest : List Input), s.env = .bus (.write (fieldAddr d k) v) :: rest ∧ s.inFlight = none) ∨
    (∃ (o : Option BusReq) (rest : List Input), s.env = .rst o :: rest) ∨
    ∃ (v : Word32) (rest : List Input), s.env = .bus (.write 0x00C v) :: rest ∧ v.getLsbD 0 = true) ∧
  ∀ (s t : State) (d : Reg), s.Inv → step s = .next t → t.regs.f[d] ≠ s.regs.f[d] →
    t.regs.f[d].toNat < p ∨
    ∃ (k : Fin 3) (v : Word32) (rest : List Input), s.env = .bus (.write (fieldAddr d k) v) :: rest ∧ s.inFlight = none

/-- R26: SIGN changes only where a HEVAL in flight runs, or at a reset. -/
def Obligations.OnlyHevalOrResetWritesSign : Prop :=
  ∀ s t : State, step s = .next t → t.status.sign ≠ s.status.sign →
    (s.engineNext = true ∧
      ∃ (fl : InFlight) (d a : Reg) (n : SlotField), s.inFlight = some fl ∧ decode fl.cmd = .ok (.heval d a n)) ∨
    (∃ (o : Option BusReq) (rest : List Input), s.env = .rst o :: rest) ∨
    ∃ (v : Word32) (rest : List Input), s.env = .bus (.write 0x00C v) :: rest ∧ v.getLsbD 0 = true

/-- R24: a slot changes only where one of the five construction commands in flight runs, or at a reset. -/
def Obligations.OnlyConstructionOrResetWritesSlots : Prop :=
  ∀ s t : State, step s = .next t → t.regs.slots ≠ s.regs.slots →
    (s.engineNext = true ∧
      ∃ (fl : InFlight) (i : Instr), s.inFlight = some fl ∧ decode fl.cmd = .ok i ∧
        i.opcode ∈ [Opcode.hclr, .hcfgms, .hcfgmp, .hcfgp3, .hsketch]) ∨
    (∃ (o : Option BusReq) (rest : List Input), s.env = .rst o :: rest) ∨
    ∃ (v : Word32) (rest : List Input), s.env = .bus (.write 0x00C v) :: rest ∧ v.getLsbD 0 = true

/-- R23: only a host write to WIDE, or a reset, changes WIDE; no command does. -/
def Obligations.OnlyHostOrResetWritesWide : Prop :=
  ∀ s t : State, step s = .next t → t.regs.wide ≠ s.regs.wide →
    (∃ (k : Fin 6) (d : Word32) (rest : List Input), s.env = .bus (.write (wideAddr k) d) :: rest ∧ s.inFlight = none) ∨
    (∃ (o : Option BusReq) (rest : List Input), s.env = .rst o :: rest) ∨
    ∃ (v : Word32) (rest : List Input), s.env = .bus (.write 0x00C v) :: rest ∧ v.getLsbD 0 = true

/-- R66, R116: an offered word goes behind those already offered and nothing else changes (log entry 2). Every other step
leaves the offered words, unless it is the engine's cycle while rnd_ready is 1, that is, while FRAND or HSKETCH is in
flight and still needs a draw; and then the words that leave are the oldest offered, no more than are needed. -/
def Obligations.WordsAreTakenOnlyWhenReady : Prop :=
  (∀ (s : State) (w : RandWord) (rest : List Input), s.env = .offer w :: rest →
    step s = .next { s with env := rest, rnd := s.rnd ++ [w] }) ∧
  ∀ s t : State, step s = .next t →
    t.rnd = s.rnd ∨
    (∃ (w : RandWord) (rest : List Input), s.env = .offer w :: rest) ∨
    (s.engineNext = true ∧ s.rndReady = true ∧ ∃ taken : List RandWord, s.rnd = taken ++ t.rnd ∧
      ∃ fl : InFlight, s.inFlight = some fl ∧ fl.draws.length + taken.length ≤ wordDraws fl.cmd)

/-- R65, R174: while a command is in flight, no bus access but a soft reset changes it, its operands or any register. -/
def Obligations.AcceptedCommandIsOutOfReach : Prop :=
  ∀ (s t : State) (r : BusReq) (rest : List Input), s.env = .bus r :: rest → s.inFlight ≠ none →
    (∀ v : Word32, r = .write 0x00C v → v.getLsbD 0 = false) → step s = .next t →
    t.inFlight = s.inFlight ∧ t.regs = s.regs

/-- R20, R150: a command that writes F[d], whichever path it takes, leaves every bus address outside F[d]'s three words and
STATUS reading as before; NOP leaves every address but STATUS so. -/
def Obligations.FieldCommandsFrameOnTheBus : Prop :=
  ∀ (i : Instr) (d : Reg) (s t : State),
    (i = .nop ∨ (∃ a b : Reg, i = .fadd d a b ∨ i = .fmul d a b) ∨ i = .fred d ∨ i = .frand d ∨
      ∃ (a : Reg) (n : SlotField), i = .heval d a n ∨ i = .hgval d a n) →
    exec i s = .next t →
    ∀ a : Addr, a ≠ 0x008 → (i = .nop ∨ ∀ k : Fin 3, a ≠ fieldAddr d k) → t.busRead a = s.busRead a

/-- R20, R150: a slot construction command, whichever path it takes, leaves every bus address outside its slot's window and
STATUS reading as before. -/
def Obligations.SlotCommandsFrameOnTheBus : Prop :=
  ∀ (i : Instr) (n : SlotField) (s t : State),
    (i = .hclr n ∨ (∃ (a : Reg) (w : Width), i = .hcfgms n a w ∨ i = .hcfgp3 n a w) ∨
      (∃ (a b : Reg) (w : Width), i = .hcfgmp n a b w) ∨ ∃ w : Width, i = .hsketch n w) →
    exec i s = .next t →
    ∀ a : Addr, a ≠ 0x008 →
      ¬(0x200 + 0x80 * n.val ≤ a.toNat ∧ a.toNat < 0x200 + 0x80 * (n.val + 1)) → t.busRead a = s.busRead a
end

