-- ==== Sys2Proof/Laws/Arith.lean ====
section
/-! SUPPORT. Fold as quotient and remainder, and that it keeps the residue mod p and comes down below p in two steps; bounds
on the products and sums that commands reduce (00_scope.md R6). -/

namespace Sys2Proof.Machine

open Config

/-- Fold splits y at bit 89 and adds the two parts. -/
theorem fold_eq (y : Nat) : fold y = y % 2 ^ 89 + y / 2 ^ 89 := by
  rw [fold, Nat.and_two_pow_sub_one_eq_mod, Nat.shiftRight_eq_div_pow]

/-- One fold of a 178-bit value is at most 2^90 − 2. -/
theorem fold_le {y : Nat} (h : y < 2 ^ 178) : fold y ≤ 2 ^ 90 - 2 := by
  rw [fold_eq]
  omega

/-- A fold of a value of at most 90 bits, 2^90 − 1 left out, is at most p. -/
theorem fold_le_p {y : Nat} (h : y ≤ 2 ^ 90 - 2) : fold y ≤ p := by
  rw [fold_eq]
  simp only [p]
  omega

/-- The product of a field register and a key, with a field register added, is far below 2^178. -/
theorem mul_key_lt (a : FieldWord) (x : Key) : a.toNat * x.toNat < 2 ^ 153 :=
  calc a.toNat * x.toNat < 2 ^ 89 * 2 ^ 64 := Nat.mul_lt_mul'' a.isLt x.isLt
    _ = 2 ^ 153 := by norm_num

/-- The product of two field registers is below 2^178. -/
theorem mul_field_lt (a b : FieldWord) : a.toNat * b.toNat < 2 ^ 178 :=
  calc a.toNat * b.toNat < 2 ^ 89 * 2 ^ 89 := Nat.mul_lt_mul'' a.isLt b.isLt
    _ = 2 ^ 178 := by norm_num

end Sys2Proof.Machine
end

