-- ==== Sys2Proof/Laws/State.lean ====
section
/-! SUPPORT. What each shared operation leaves in each field of the state, one lemma a field, so that no later proof
unfolds a record update. -/

namespace Sys2Proof.Machine

variable (s : State)

@[simp] theorem State.recordError_regs (c : ErrCode) : (s.recordError c).regs = s.regs := rfl
@[simp] theorem State.recordError_status (c : ErrCode) : (s.recordError c).status = s.status.record c := rfl
@[simp] theorem State.recordError_inFlight (c : ErrCode) : (s.recordError c).inFlight = s.inFlight := rfl
@[simp] theorem State.recordError_rnd (c : ErrCode) : (s.recordError c).rnd = s.rnd := rfl
@[simp] theorem State.recordError_params (c : ErrCode) : (s.recordError c).params = s.params := rfl
@[simp] theorem State.recordError_env (c : ErrCode) : (s.recordError c).env = s.env := rfl
@[simp] theorem State.recordError_responses (c : ErrCode) : (s.recordError c).responses = s.responses := rfl

@[simp] theorem State.clearError_regs : s.clearError.regs = s.regs := rfl
@[simp] theorem State.clearError_status : s.clearError.status = s.status.clear := rfl
@[simp] theorem State.clearError_inFlight : s.clearError.inFlight = s.inFlight := rfl
@[simp] theorem State.clearError_rnd : s.clearError.rnd = s.rnd := rfl
@[simp] theorem State.clearError_params : s.clearError.params = s.params := rfl
@[simp] theorem State.clearError_env : s.clearError.env = s.env := rfl
@[simp] theorem State.clearError_responses : s.clearError.responses = s.responses := rfl

@[simp] theorem State.resetBlock_regs : s.resetBlock.regs = Regs.reset := rfl
@[simp] theorem State.resetBlock_status : s.resetBlock.status = Status.reset := rfl
@[simp] theorem State.resetBlock_inFlight : s.resetBlock.inFlight = none := rfl
@[simp] theorem State.resetBlock_rnd : s.resetBlock.rnd = s.rnd := rfl
@[simp] theorem State.resetBlock_params : s.resetBlock.params = s.params := rfl
@[simp] theorem State.resetBlock_env : s.resetBlock.env = s.env := rfl
@[simp] theorem State.resetBlock_responses : s.resetBlock.responses = s.responses := rfl

@[simp] theorem State.accept_regs (w : Word32) : (s.accept w).regs = s.regs := rfl
@[simp] theorem State.accept_status (w : Word32) : (s.accept w).status = s.status := rfl
@[simp] theorem State.accept_inFlight (w : Word32) : (s.accept w).inFlight = some (s.newFlight w) := rfl
@[simp] theorem State.accept_rnd (w : Word32) : (s.accept w).rnd = s.rnd := rfl
@[simp] theorem State.accept_params (w : Word32) : (s.accept w).params = s.params := rfl
@[simp] theorem State.accept_env (w : Word32) : (s.accept w).env = s.env := rfl
@[simp] theorem State.accept_responses (w : Word32) : (s.accept w).responses = s.responses := rfl

@[simp] theorem State.respond_regs (r : BusResp) : (s.respond r).regs = s.regs := rfl
@[simp] theorem State.respond_status (r : BusResp) : (s.respond r).status = s.status := rfl
@[simp] theorem State.respond_inFlight (r : BusResp) : (s.respond r).inFlight = s.inFlight := rfl
@[simp] theorem State.respond_rnd (r : BusResp) : (s.respond r).rnd = s.rnd := rfl
@[simp] theorem State.respond_params (r : BusResp) : (s.respond r).params = s.params := rfl
@[simp] theorem State.respond_env (r : BusResp) : (s.respond r).env = s.env := rfl
@[simp] theorem State.respond_responses (r : BusResp) : (s.respond r).responses = r :: s.responses := rfl

@[simp] theorem State.offerWord_regs (w : RandWord) : (s.offerWord w).regs = s.regs := rfl
@[simp] theorem State.offerWord_status (w : RandWord) : (s.offerWord w).status = s.status := rfl
@[simp] theorem State.offerWord_inFlight (w : RandWord) : (s.offerWord w).inFlight = s.inFlight := rfl
@[simp] theorem State.offerWord_rnd (w : RandWord) : (s.offerWord w).rnd = s.rnd ++ [w] := rfl
@[simp] theorem State.offerWord_params (w : RandWord) : (s.offerWord w).params = s.params := rfl
@[simp] theorem State.offerWord_env (w : RandWord) : (s.offerWord w).env = s.env := rfl
@[simp] theorem State.offerWord_responses (w : RandWord) : (s.offerWord w).responses = s.responses := rfl

/-! ### The commit -/

@[simp] theorem State.commit_error (c : ErrCode) :
    s.commit (.error c) = { s with status := s.status.record c, inFlight := none } := rfl

@[simp] theorem State.commit_writes (f : Option (Reg × FieldWord)) (sl : Option (Fin 4 × Slot)) (b : Option Bool) :
    s.commit (.writes f sl b) =
      { s with regs := s.regs.write f sl, status := s.status.write b, inFlight := none } := rfl

@[simp] theorem State.commit_inFlight (o : CmdOutcome) : (s.commit o).inFlight = none := by cases o <;> rfl
@[simp] theorem State.commit_rnd (o : CmdOutcome) : (s.commit o).rnd = s.rnd := by cases o <;> rfl
@[simp] theorem State.commit_params (o : CmdOutcome) : (s.commit o).params = s.params := by cases o <;> rfl
@[simp] theorem State.commit_env (o : CmdOutcome) : (s.commit o).env = s.env := by cases o <;> rfl
@[simp] theorem State.commit_responses (o : CmdOutcome) : (s.commit o).responses = s.responses := by cases o <;> rfl

@[simp] theorem Regs.write_none (r : Regs) : r.write none none = r := rfl

@[simp] theorem Regs.write_f (r : Regs) (d : Reg) (v : FieldWord) :
    r.write (some (d, v)) none = { r with f := r.f.set d v } := rfl

@[simp] theorem Regs.write_slot (r : Regs) (n : Fin 4) (sl : Slot) :
    r.write none (some (n, sl)) = { r with slots := r.slots.set n sl } := rfl

@[simp] theorem Regs.write_wide (r : Regs) (f : Option (Reg × FieldWord)) (sl : Option (Fin 4 × Slot)) :
    (r.write f sl).wide = r.wide := rfl

@[simp] theorem Status.write_none (st : Status) : st.write none = st := rfl

@[simp] theorem Status.write_some (st : Status) (b : Bool) : st.write (some b) = { st with sign := b } := rfl

/-! ### The draws -/

@[simp] theorem State.takeDraws_regs (n : Nat) (w : Word32) : (s.takeDraws n w).regs = s.regs := rfl
@[simp] theorem State.takeDraws_status (n : Nat) (w : Word32) : (s.takeDraws n w).status = s.status := rfl
@[simp] theorem State.takeDraws_params (n : Nat) (w : Word32) : (s.takeDraws n w).params = s.params := rfl
@[simp] theorem State.takeDraws_env (n : Nat) (w : Word32) : (s.takeDraws n w).env = s.env := rfl
@[simp] theorem State.takeDraws_responses (n : Nat) (w : Word32) : (s.takeDraws n w).responses = s.responses := rfl

@[simp] theorem State.takeDraws_rnd (n : Nat) (w : Word32) :
    (s.takeDraws n w).rnd = s.rnd.drop (n - (s.flightOr w).draws.length) := rfl

@[simp] theorem State.drawsHeld_takeDraws (n : Nat) (w : Word32) :
    (s.takeDraws n w).drawsHeld =
      (s.flightOr w).draws ++ (s.rnd.take (n - (s.flightOr w).draws.length)).map s.coef := rfl

/-! ### The bus -/

@[simp] theorem State.writeTarget_rnd (t : Target) (d : Word32) : (s.writeTarget t d).rnd = s.rnd := by
  cases t <;> simp only [State.writeTarget, State.writeCmd, State.writeCtrl, State.writeRegs] <;> (repeat' split) <;> rfl

@[simp] theorem State.writeTarget_params (t : Target) (d : Word32) : (s.writeTarget t d).params = s.params := by
  cases t <;> simp only [State.writeTarget, State.writeCmd, State.writeCtrl, State.writeRegs] <;> (repeat' split) <;> rfl

@[simp] theorem State.writeTarget_env (t : Target) (d : Word32) : (s.writeTarget t d).env = s.env := by
  cases t <;> simp only [State.writeTarget, State.writeCmd, State.writeCtrl, State.writeRegs] <;> (repeat' split) <;> rfl

@[simp] theorem State.writeTarget_responses (t : Target) (d : Word32) : (s.writeTarget t d).responses = s.responses := by
  cases t <;> simp only [State.writeTarget, State.writeCmd, State.writeCtrl, State.writeRegs] <;> (repeat' split) <;> rfl

end Sys2Proof.Machine
end

