-- ==== Sys2Proof/Laws/Bus.lean ====
section
/-! SUPPORT. The register map read backwards: which addresses name a target, so that a fact about targets becomes one about
addresses (20_memory.md R54). -/

namespace Sys2Proof.Machine

/-- CTRL is at 0x00C only. -/
theorem target_eq_ctrl {a : Addr} (h : target a = .ctrl) : a = 0x00C := by
  apply BitVec.eq_of_toNat_eq
  revert h
  simp only [target, targetLow, targetField, targetSlot]
  repeat' split
  all_goals (intro h; first | contradiction | assumption)

/-- STATUS is at 0x008 only. -/
theorem target_eq_status {a : Addr} (h : target a = .status) : a = 0x008 := by
  apply BitVec.eq_of_toNat_eq
  revert h
  simp only [target, targetLow, targetField, targetSlot]
  repeat' split
  all_goals (intro h; first | contradiction | assumption)

/-- CMD is at 0x004 only. -/
theorem target_eq_cmd {a : Addr} (h : target a = .cmd) : a = 0x004 := by
  apply BitVec.eq_of_toNat_eq
  revert h
  simp only [target, targetLow, targetField, targetSlot]
  repeat' split
  all_goals (intro h; first | contradiction | assumption)

/-- WIDE word k is at its own address only. -/
theorem target_eq_wide {a : Addr} {k : Fin 6} (h : target a = .wide k) : a = wideAddr k.val := by
  apply BitVec.eq_of_toNat_eq
  revert h
  simp only [target, targetLow, targetField, targetSlot, wideAddr, BitVec.toNat_ofNat]
  repeat' split
  all_goals
    intro h
    first
      | contradiction
      | (cases h; simp only [Fin.ofNat]; omega)

/-- F[i] word k is at its own address only. -/
theorem target_eq_f {a : Addr} {i : Fin 16} {k : Fin 3} (h : target a = .f i k) : a = fieldAddr i k.val := by
  apply BitVec.eq_of_toNat_eq
  revert h
  simp only [target, targetLow, targetField, targetSlot, fieldAddr, BitVec.toNat_ofNat]
  repeat' split
  all_goals
    intro h
    first
      | contradiction
      | (cases h; simp only [Fin.ofNat]; omega)

/-- A slot's registers lie in the slot's own window. -/
theorem target_slot_window {a : Addr} {n : Fin 4} (h : target a = .scfg n ∨ ∃ k j, target a = .coef n k j) :
    0x200 + 0x80 * n.val ≤ a.toNat ∧ a.toNat < 0x200 + 0x80 * (n.val + 1) := by
  rcases h with h | ⟨k, j, h⟩
  all_goals
    revert h
    simp only [target, targetLow, targetField, targetSlot]
    repeat' split
    all_goals
      intro h
      first
        | contradiction
        | (cases h; simp only [Fin.ofNat]; omega)

/-- Bus errors are the misaligned addresses and those from 0x400 up (R52, R53). -/
theorem target_eq_busError {a : Addr} : target a = .busError ↔ a.toNat % 4 ≠ 0 ∨ 0x400 ≤ a.toNat := by
  constructor
  · intro h
    revert h
    simp only [target, targetLow, targetField, targetSlot]
    repeat' split
    all_goals (intro h; first | contradiction | assumption)
  · intro h
    simp only [target, h, if_true]

end Sys2Proof.Machine
end

