-- ==== Sys2Proof/Laws/Encoding.lean ====
section
/-! SUPPORT. The fields of a packed command word, packing as the inverse of the field readers, and masking field by
field; then the same facts of an encoded command. -/

namespace Sys2Proof.Laws

open Sys2Proof

section Fields

variable (rsv : BitVec 3) (w : BitVec 7) (slot rb ra rd : BitVec 4) (opc : BitVec 6)

theorem toNat_append_add {m n : Nat} (x : BitVec m) (y : BitVec n) :
    (x ++ y).toNat = y.toNat + 2 ^ n * x.toNat := by
  rw [BitVec.toNat_append, Nat.shiftLeft_eq, Nat.mul_comm, ← Nat.two_pow_add_eq_or_of_lt y.isLt, Nat.add_comm]

theorem and_append {m n : Nat} (x x' : BitVec m) (y y' : BitVec n) :
    (x ++ y) &&& (x' ++ y') = (x &&& x') ++ (y &&& y') := by
  ext i hi
  simp only [BitVec.getElem_and, BitVec.getElem_append]
  split <;> rfl

theorem packWord_toNat : (packWord rsv w slot rb ra rd opc).toNat =
    opc.toNat + 2 ^ 6 * rd.toNat + 2 ^ 10 * ra.toNat + 2 ^ 14 * rb.toNat + 2 ^ 18 * slot.toNat
      + 2 ^ 22 * w.toNat + 2 ^ 29 * rsv.toNat := by
  simp only [packWord, toNat_append_add]
  omega

@[simp] theorem opcOf_packWord : opcOf (packWord rsv w slot rb ra rd opc) = opc := by
  apply BitVec.eq_of_toNat_eq
  simp only [opcOf, BitVec.extractLsb'_toNat, packWord_toNat, Nat.shiftRight_eq_div_pow]
  omega

@[simp] theorem rdOf_packWord : rdOf (packWord rsv w slot rb ra rd opc) = rd := by
  apply BitVec.eq_of_toNat_eq
  simp only [rdOf, BitVec.extractLsb'_toNat, packWord_toNat, Nat.shiftRight_eq_div_pow]
  omega

@[simp] theorem raOf_packWord : raOf (packWord rsv w slot rb ra rd opc) = ra := by
  apply BitVec.eq_of_toNat_eq
  simp only [raOf, BitVec.extractLsb'_toNat, packWord_toNat, Nat.shiftRight_eq_div_pow]
  omega

@[simp] theorem rbOf_packWord : rbOf (packWord rsv w slot rb ra rd opc) = rb := by
  apply BitVec.eq_of_toNat_eq
  simp only [rbOf, BitVec.extractLsb'_toNat, packWord_toNat, Nat.shiftRight_eq_div_pow]
  omega

@[simp] theorem slotOf_packWord : slotOf (packWord rsv w slot rb ra rd opc) = slot := by
  apply BitVec.eq_of_toNat_eq
  simp only [slotOf, BitVec.extractLsb'_toNat, packWord_toNat, Nat.shiftRight_eq_div_pow]
  omega

@[simp] theorem widthOf_packWord : widthOf (packWord rsv w slot rb ra rd opc) = w := by
  apply BitVec.eq_of_toNat_eq
  simp only [widthOf, BitVec.extractLsb'_toNat, packWord_toNat, Nat.shiftRight_eq_div_pow]
  omega

@[simp] theorem rsvOf_packWord : rsvOf (packWord rsv w slot rb ra rd opc) = rsv := by
  apply BitVec.eq_of_toNat_eq
  simp only [rsvOf, BitVec.extractLsb'_toNat, packWord_toNat, Nat.shiftRight_eq_div_pow]
  omega

theorem packWord_and (rsv' : BitVec 3) (w' : BitVec 7) (slot' rb' ra' rd' : BitVec 4) (opc' : BitVec 6) :
    packWord rsv w slot rb ra rd opc &&& packWord rsv' w' slot' rb' ra' rd' opc' =
      packWord (rsv &&& rsv') (w &&& w') (slot &&& slot') (rb &&& rb') (ra &&& ra') (rd &&& rd')
        (opc &&& opc') := by
  have h := and_append (rsv ++ w ++ slot ++ rb ++ ra ++ rd) (rsv' ++ w' ++ slot' ++ rb' ++ ra' ++ rd') opc opc'
  simp only [and_append (rsv ++ w ++ slot ++ rb ++ ra), and_append (rsv ++ w ++ slot ++ rb),
    and_append (rsv ++ w ++ slot), and_append (rsv ++ w), and_append rsv] at h
  exact h

end Fields

/-- A word is the packing of its fields. -/
theorem packWord_fields (v : Word32) :
    packWord (rsvOf v) (widthOf v) (slotOf v) (rbOf v) (raOf v) (rdOf v) (opcOf v) = v := by
  apply BitVec.eq_of_toNat_eq
  simp only [packWord_toNat, opcOf, rdOf, raOf, rbOf, slotOf, widthOf, rsvOf, BitVec.extractLsb'_toNat,
    Nat.shiftRight_eq_div_pow]
  omega

/-- Two words with the same fields are equal. -/
theorem word_ext {v v' : Word32} (hrsv : rsvOf v = rsvOf v') (hw : widthOf v = widthOf v')
    (hslot : slotOf v = slotOf v') (hrb : rbOf v = rbOf v') (hra : raOf v = raOf v') (hrd : rdOf v = rdOf v')
    (hopc : opcOf v = opcOf v') : v = v' := by
  rw [← packWord_fields v, ← packWord_fields v', hrsv, hw, hslot, hrb, hra, hrd, hopc]

/-- Masking a word masks each of its fields. -/
theorem fields_and (v m : Word32) : v &&& m =
    packWord (rsvOf v &&& rsvOf m) (widthOf v &&& widthOf m) (slotOf v &&& slotOf m) (rbOf v &&& rbOf m)
      (raOf v &&& raOf m) (rdOf v &&& rdOf m) (opcOf v &&& opcOf m) := by
  conv_lhs => rw [← packWord_fields v, ← packWord_fields m, packWord_and]

@[simp] theorem opcOf_and (v m : Word32) : opcOf (v &&& m) = opcOf v &&& opcOf m := by
  rw [fields_and, opcOf_packWord]

@[simp] theorem rdOf_and (v m : Word32) : rdOf (v &&& m) = rdOf v &&& rdOf m := by rw [fields_and, rdOf_packWord]

@[simp] theorem raOf_and (v m : Word32) : raOf (v &&& m) = raOf v &&& raOf m := by rw [fields_and, raOf_packWord]

@[simp] theorem rbOf_and (v m : Word32) : rbOf (v &&& m) = rbOf v &&& rbOf m := by rw [fields_and, rbOf_packWord]

@[simp] theorem slotOf_and (v m : Word32) : slotOf (v &&& m) = slotOf v &&& slotOf m := by
  rw [fields_and, slotOf_packWord]

@[simp] theorem widthOf_and (v m : Word32) : widthOf (v &&& m) = widthOf v &&& widthOf m := by
  rw [fields_and, widthOf_packWord]

@[simp] theorem rsvOf_and (v m : Word32) : rsvOf (v &&& m) = rsvOf v &&& rsvOf m := by
  rw [fields_and, rsvOf_packWord]

/-- An opcode is found again by its own code. -/
theorem ofCode?_code (o : Opcode) : Opcode.ofCode? o.code = some o := by cases o <;> decide

/-- The opcode found by a code has that code. -/
theorem code_of_ofCode? {c : BitVec 6} {o : Opcode} (h : Opcode.ofCode? c = some o) : o.code = c := by
  simpa using List.find?_some h

/-- The pattern of a row has the row's OPC and nothing else. -/
theorem pattern_eq (o : Opcode) : o.pattern = packWord 0 0 0 0 0 0 o.code := by cases o <;> decide

/-- Each mask field by field: all ones over OPC, RSV and every field the opcode does not use, zero over the others. -/
theorem mask_eq (o : Opcode) : o.mask =
    let one : BitVec 4 := .allOnes 4
    match o with
    | .nop => packWord (.allOnes 3) (.allOnes 7) one one one one (.allOnes 6)
    | .fadd => packWord (.allOnes 3) (.allOnes 7) one 0 0 0 (.allOnes 6)
    | .fmul => packWord (.allOnes 3) (.allOnes 7) one 0 0 0 (.allOnes 6)
    | .fred => packWord (.allOnes 3) (.allOnes 7) one one one 0 (.allOnes 6)
    | .frand => packWord (.allOnes 3) (.allOnes 7) one one one 0 (.allOnes 6)
    | .hclr => packWord (.allOnes 3) (.allOnes 7) 0 one one one (.allOnes 6)
    | .hcfgms => packWord (.allOnes 3) 0 0 one 0 one (.allOnes 6)
    | .hcfgmp => packWord (.allOnes 3) 0 0 0 0 one (.allOnes 6)
    | .hcfgp3 => packWord (.allOnes 3) 0 0 one 0 one (.allOnes 6)
    | .hsketch => packWord (.allOnes 3) 0 0 one one one (.allOnes 6)
    | .heval => packWord (.allOnes 3) (.allOnes 7) 0 one 0 0 (.allOnes 6)
    | .hgval => packWord (.allOnes 3) (.allOnes 7) 0 one 0 0 (.allOnes 6) := by
  cases o <;> decide

/-- Every mask covers OPC and RSV. -/
theorem mask_covers (o : Opcode) : opcOf o.mask = BitVec.allOnes 6 ∧ rsvOf o.mask = BitVec.allOnes 3 := by
  cases o <;> decide

/-- An encoded command carries its opcode's code. -/
theorem opcOf_encode (i : Instr) : opcOf (encode i) = i.opcode.code := by
  cases i <;> simp [encode, Instr.opcode]

/-- An encoded command has RSV = 0. -/
theorem rsvOf_encode (i : Instr) : rsvOf (encode i) = 0 := by
  cases i <;> simp [encode]

/-- An encoded command matches its opcode's row. -/
theorem mask_encode (i : Instr) : encode i &&& i.opcode.mask = i.opcode.pattern := by
  apply word_ext <;> cases i <;> simp [encode, Instr.opcode, pattern_eq, mask_eq] <;> decide +revert

/-- Rebuilding a command from its own word gives it back. -/
theorem build_encode (i : Instr) : i.opcode.build (encode i) = i := by
  cases i <;> simp [encode, Instr.opcode, Opcode.build]

/-- The word of a command built from a word that matches the row is that word. -/
theorem encode_build (o : Opcode) (w : Word32) (h : w &&& o.mask = o.pattern) :
    encode (o.build w) = w := by
  have e : ∀ {α} (f : Word32 → α), f (w &&& o.mask) = f o.pattern := fun f => by rw [h]
  have h1 := e widthOf
  have h2 := e slotOf
  have h3 := e rbOf
  have h4 := e raOf
  have h5 := e rdOf
  have h6 := e rsvOf
  have h7 := e opcOf
  clear h e
  cases o <;> simp [mask_eq, pattern_eq, -BitVec.reduceAllOnes, BitVec.and_allOnes] at h1 h2 h3 h4 h5 h6 h7 <;>
    apply word_ext <;> simp [Opcode.build, encode, *]

/-- What a word that matches a row decodes to: the row's command, or illegal by its SLOT. -/
theorem decode_of_match {w : Word32} {o : Opcode} (h : w &&& o.mask = o.pattern) :
    decode w = if (o.build w).wf then .ok (o.build w) else .error .slotRange := by
  have h1 : opcOf w = o.code := by
    have := congrArg opcOf h
    simpa [mask_covers, pattern_eq, -BitVec.reduceAllOnes, BitVec.and_allOnes] using this
  have h2 : rsvOf w = 0 := by
    have := congrArg rsvOf h
    simpa [mask_covers, pattern_eq, -BitVec.reduceAllOnes, BitVec.and_allOnes] using this
  simp [decode, h1, h2, ofCode?_code, h]

/-- A word that matches no row is illegal. -/
theorem decode_of_no_match {w : Word32} (h : ∀ o : Opcode, w &&& o.mask ≠ o.pattern) (i : Instr) :
    decode w ≠ .ok i := by
  unfold decode
  split
  · exact nofun
  · split
    · exact nofun
    · split
      · exact nofun
      · exact absurd ‹_› (by simpa using h _)

end Sys2Proof.Laws
end

