-- ==== Sys2Proof/Laws/Ops.lean ====
section
/-! SUPPORT. One lemma per shared operation that says what it can do: the operand checks, the draws with enough words and
with too few, and the commit. -/

namespace Sys2Proof.Machine

open Config

/-- A slot operand below NSLOT passes the slot check. -/
theorem withSlot_of_lt {n : SlotField} (h : n.val < 4) (k : Fin 4 → CmdOutcome) : withSlot n k = k ⟨n.val, h⟩ :=
  dif_pos h

/-- A slot operand that names no slot is ILLEGAL_CMD. -/
theorem withSlot_of_ge {n : SlotField} (h : 4 ≤ n.val) (k : Fin 4 → CmdOutcome) :
    withSlot n k = .error .illegalCmd :=
  dif_neg (Nat.not_lt.mpr h)

/-- A width in the kind's range passes the width check. -/
theorem withWidth_of_ok {k : Kind} {w : Width} (h : 1 ≤ w.val ∧ w.val ≤ maxWidth k) (o : CmdOutcome) :
    withWidth k w o = o := by
  simp [withWidth, widthOk, h]

/-- A width outside the kind's range is INVALID_PARAMETER. -/
theorem withWidth_of_bad {k : Kind} {w : Width} (h : ¬(1 ≤ w.val ∧ w.val ≤ maxWidth k)) (o : CmdOutcome) :
    withWidth k w o = .error .invalidParameter := by
  simp [withWidth, widthOk, h]

/-- The width field of a constructed slot, as a number's 7 bits. -/
theorem width_ofFin (w : Width) : BitVec.ofFin w = BitVec.ofNat 7 w.val := by
  apply BitVec.eq_of_toNat_eq
  rw [BitVec.toNat_ofNat, Nat.mod_eq_of_lt w.isLt, BitVec.toNat_ofFin]

/-- The draws in the record of the command in flight are the draws held. -/
@[simp] theorem State.flightOr_draws (s : State) (w : Word32) : (s.flightOr w).draws = s.drawsHeld := by
  unfold State.flightOr State.drawsHeld
  cases s.inFlight <;> rfl

/-- With exactly the missing words taken from the front of the port. -/
theorem State.takeDraws_append (s : State) {ws rest : List RandWord} {need : Nat} (w : Word32)
    (h : s.rnd = ws ++ rest) (hl : s.drawsHeld.length + ws.length = need) :
    s.takeDraws need w =
      { s with
        rnd := rest
        inFlight := some { s.flightOr w with draws := s.drawsHeld ++ ws.map s.coef } } := by
  have hm : need - s.drawsHeld.length = ws.length := by omega
  simp [State.takeDraws, hm, h]

/-- With too few words offered, all of them are taken. -/
theorem State.takeDraws_short (s : State) {need : Nat} (w : Word32)
    (h : s.drawsHeld.length + s.rnd.length < need) :
    s.takeDraws need w =
      { s with
        rnd := []
        inFlight := some { s.flightOr w with draws := s.drawsHeld ++ s.rnd.map s.coef } } := by
  have hm : s.rnd.length ≤ need - s.drawsHeld.length := by omega
  simp [State.takeDraws, List.take_of_length_le hm, List.drop_eq_nil_of_le hm]

/-- A command that draws, with the words it still needs at the front of the port, takes them and commits. -/
theorem State.drawThen_commits (s : State) {ws rest : List RandWord} {need : Nat} (w : Word32)
    (k : List FieldWord → CmdOutcome) (h : s.rnd = ws ++ rest) (hl : s.drawsHeld.length + ws.length = need) :
    s.drawThen need w k = State.commit { s with rnd := rest } (k (s.drawsHeld ++ ws.map s.coef)) := by
  have hd : ∀ fl : InFlight, State.drawsHeld { s with rnd := rest, inFlight := some fl } = fl.draws := fun _ => rfl
  rw [State.drawThen, s.takeDraws_append w h hl]
  simp only [hd, List.length_append, List.length_map, hl, Nat.lt_irrefl, if_false]
  cases k (s.drawsHeld ++ ws.map s.coef) <;> rfl

/-- A command that holds all the draws it needs takes none and commits. -/
theorem State.drawThen_holding (s : State) {need : Nat} (w : Word32) (k : List FieldWord → CmdOutcome)
    (hl : need ≤ s.drawsHeld.length) : s.drawThen need w k = s.commit (k s.drawsHeld) := by
  have hd : (s.takeDraws need w).drawsHeld = s.drawsHeld := by simp [Nat.sub_eq_zero_of_le hl]
  rw [State.drawThen]
  simp only [hd, Nat.not_lt.mpr hl, if_false]
  cases k s.drawsHeld <;> simp [State.takeDraws, Nat.sub_eq_zero_of_le hl]

/-- A command that draws, with too few words offered, takes them all and waits. -/
theorem State.drawThen_waits (s : State) {need : Nat} (w : Word32) (k : List FieldWord → CmdOutcome)
    (h : s.drawsHeld.length + s.rnd.length < need) :
    s.drawThen need w k =
      { s with
        rnd := []
        inFlight := some { s.flightOr w with draws := s.drawsHeld ++ s.rnd.map s.coef } } := by
  have hd : ∀ fl : InFlight, State.drawsHeld { s with rnd := [], inFlight := some fl } = fl.draws := fun _ => rfl
  rw [State.drawThen, s.takeDraws_short w h]
  simp only [hd, List.length_append, List.length_map, h, if_true]

/-- The commit of an error, as R158 writes it: ERR and ERRCODE if ERR was 0, BUSY, and nothing else. -/
theorem State.commit_error_eq (s : State) (c : ErrCode) :
    s.commit (.error c) =
      { s with
        status := if s.status.err then s.status else { s.status with err := true, errcode := c }
        inFlight := none } := rfl

end Sys2Proof.Machine
end

