-- ==== Sys2Proof/Laws/Exec.lean ====
section
/-! SUPPORT. One lemma for all of exec: every command is a draw of `drawsNeeded` words followed by the commit of an outcome
that writes only what the command may write (10_state.md R20). Whole-machine facts about commands follow from it. -/

namespace Sys2Proof.Machine

open Config

/-- The field register that a command may write (R20). -/
def destOf : Instr → Option Reg
  | .nop => none
  | .fadd d _ _ => some d
  | .fmul d _ _ => some d
  | .fred d => some d
  | .frand d => some d
  | .hclr _ => none
  | .hcfgms _ _ _ => none
  | .hcfgmp _ _ _ _ => none
  | .hcfgp3 _ _ _ => none
  | .hsketch _ _ => none
  | .heval d _ _ => some d
  | .hgval d _ _ => some d

/-- The SLOT operand of a command that may write a slot (R20). -/
def slotDestOf : Instr → Option SlotField
  | .nop => none
  | .fadd _ _ _ => none
  | .fmul _ _ _ => none
  | .fred _ => none
  | .frand _ => none
  | .hclr n => some n
  | .hcfgms n _ _ => some n
  | .hcfgmp n _ _ _ => some n
  | .hcfgp3 n _ _ => some n
  | .hsketch n _ => some n
  | .heval _ _ _ => none
  | .hgval _ _ _ => none

/-- What an outcome of command i may be: a real error, and then i draws nothing (R116, R160); or writes to i's own destinations, SIGN only by HEVAL. -/
def OutcomeFits (i : Instr) : CmdOutcome → Prop
  | .error c => c ≠ .none ∧ drawsNeeded i = 0
  | .writes f sl sg =>
    (∀ d v, f = some (d, v) → destOf i = some d) ∧
    (∀ n x, sl = some (n, x) → ∃ m, slotDestOf i = some m ∧ m.val = n.val) ∧
    (sg ≠ none → i.opcode = .heval)

/-- The slot check keeps an outcome fitting. -/
theorem withSlot_fits {i : Instr} {n : SlotField} {k : Fin 4 → CmdOutcome}
    (h : ∀ m : Fin 4, n.val = m.val → OutcomeFits i (k m)) (hd : 4 ≤ n.val → drawsNeeded i = 0) :
    OutcomeFits i (withSlot n k) := by
  unfold withSlot
  split
  · exact h _ rfl
  · exact ⟨nofun, hd (by omega)⟩

/-- The width check keeps an outcome fitting. -/
theorem withWidth_fits {i : Instr} {k : Kind} {w : Width} {o : CmdOutcome} (h : OutcomeFits i o)
    (hd : widthOk k w = false → drawsNeeded i = 0) : OutcomeFits i (withWidth k w o) := by
  unfold withWidth
  split
  · exact h
  · exact ⟨nofun, hd (Bool.eq_false_iff.mpr ‹¬_›)⟩

/-- Writing the command's own register fits it. -/
theorem writeF_fits {i : Instr} {d : Reg} (h : destOf i = some d) (v : FieldWord) :
    OutcomeFits i (.writeF d v) :=
  ⟨fun _ _ e => by cases e; exact h, nofun, fun e => absurd rfl e⟩

/-- Writing the command's own slot fits it. -/
theorem writeSlot_fits {i : Instr} {m : SlotField} {n : Fin 4} (h : slotDestOf i = some m) (hn : m.val = n.val)
    (sl : Slot) : OutcomeFits i (.writeSlot n sl) :=
  ⟨nofun, fun _ _ e => by cases e; exact ⟨m, h, hn⟩, fun e => absurd rfl e⟩

/-- An evaluation fits where what it does with the hash does. -/
theorem evalThen_fits {i : Instr} {n : SlotField} {a : Reg} {s : State} {k : HashOut → CmdOutcome}
    (h : ∀ x, OutcomeFits i (k x)) (hd : drawsNeeded i = 0) : OutcomeFits i (evalThen n a s k) := by
  refine withSlot_fits (fun m _ => ?_) fun _ => hd
  split
  · exact ⟨nofun, hd⟩
  · exact h _

/-- A command that needs no draw commits at once. -/
theorem State.drawThen_zero (s : State) (w : Word32) (k : List FieldWord → CmdOutcome) :
    s.drawThen 0 w k = s.commit (k s.drawsHeld) :=
  s.drawThen_holding w k (Nat.zero_le _)

/-- The shape of a command that needs no draw. -/
theorem shape_of_commit {i : Instr} {s : State} {o : CmdOutcome} (hd : drawsNeeded i = 0)
    (he : exec i s = .next (s.commit o)) (hf : OutcomeFits i o) : ∃ k : List FieldWord → CmdOutcome,
      exec i s = .next (s.drawThen (drawsNeeded i) (encode i) k) ∧ ∀ cs, OutcomeFits i (k cs) :=
  ⟨fun _ => o, by rw [he, hd, State.drawThen_zero], fun _ => hf⟩

/-- Every command draws what it needs and commits an outcome that fits it. -/
theorem exec_shape (i : Instr) (s : State) : ∃ k : List FieldWord → CmdOutcome,
    exec i s = .next (s.drawThen (drawsNeeded i) (encode i) k) ∧ ∀ cs, OutcomeFits i (k cs) := by
  cases i with
  | frand d => exact ⟨_, rfl, fun _ => writeF_fits rfl _⟩
  | hsketch n w =>
    refine ⟨_, rfl, fun _ => withSlot_fits (fun _ hm => withWidth_fits (writeSlot_fits rfl hm _) ?_) ?_⟩
    · intro h
      simp [drawsNeeded, h]
    · intro h
      simp [drawsNeeded, slotLegal, NSLOT, Nat.not_lt.mpr h]
  | nop => exact shape_of_commit rfl rfl ⟨nofun, nofun, fun e => absurd rfl e⟩
  | fadd d a b => exact shape_of_commit rfl rfl (writeF_fits rfl _)
  | fmul d a b => exact shape_of_commit rfl rfl (writeF_fits rfl _)
  | fred d => exact shape_of_commit rfl rfl (writeF_fits rfl _)
  | hclr n => exact shape_of_commit rfl rfl (withSlot_fits (fun _ hm => writeSlot_fits rfl hm _) fun _ => rfl)
  | hcfgms n a w =>
    exact shape_of_commit rfl rfl
      (withSlot_fits (fun _ hm => withWidth_fits (writeSlot_fits rfl hm _) fun _ => rfl) fun _ => rfl)
  | hcfgmp n a b w =>
    exact shape_of_commit rfl rfl
      (withSlot_fits (fun _ hm => withWidth_fits (writeSlot_fits rfl hm _) fun _ => rfl) fun _ => rfl)
  | hcfgp3 n a w =>
    exact shape_of_commit rfl rfl
      (withSlot_fits (fun _ hm => withWidth_fits (writeSlot_fits rfl hm _) fun _ => rfl) fun _ => rfl)
  | heval d a n =>
    exact shape_of_commit rfl rfl
      (evalThen_fits (fun _ => ⟨fun _ _ e => by cases e; rfl, nofun, fun _ => rfl⟩) rfl)
  | hgval d a n => exact shape_of_commit rfl rfl (evalThen_fits (fun _ => writeF_fits rfl _) rfl)

/-- What a drawing command leaves: it waits with every offered word taken, or it commits with exactly the missing words
taken. -/
theorem State.drawThen_cases (s : State) (need : Nat) (w : Word32) (k : List FieldWord → CmdOutcome) :
    (s.drawsHeld.length + s.rnd.length < need ∧
      s.drawThen need w k =
        { s with
          rnd := []
          inFlight := some { s.flightOr w with draws := s.drawsHeld ++ s.rnd.map s.coef } }) ∨
    ∃ (ws rest : List RandWord) (cs : List FieldWord), s.rnd = ws ++ rest ∧
      (ws ≠ [] → s.drawsHeld.length + ws.length = need) ∧ cs = s.drawsHeld ++ ws.map s.coef ∧
      (need = 0 → ws = []) ∧ s.drawThen need w k = State.commit { s with rnd := rest } (k cs) := by
  by_cases h : s.drawsHeld.length + s.rnd.length < need
  · exact .inl ⟨h, s.drawThen_waits w k h⟩
  · right
    by_cases hl : need ≤ s.drawsHeld.length
    · exact ⟨[], s.rnd, _, rfl, fun e => absurd rfl e, rfl, fun _ => rfl, by simpa using s.drawThen_holding w k hl⟩
    · have hlen : s.drawsHeld.length + (s.rnd.take (need - s.drawsHeld.length)).length = need := by
        rw [List.length_take]
        omega
      exact ⟨_, _, _, (List.take_append_drop _ _).symm, fun _ => hlen, rfl, fun e => absurd (Nat.zero_le _) (e ▸ hl),
        s.drawThen_commits w k (List.take_append_drop _ _).symm hlen⟩

end Sys2Proof.Machine
end

