-- ==== Sys2Proof/Laws/PerInstr.lean ====
section
/-! SUPPORT. What holds of every command as syntax, one lemma a constructor: its word matches its opcode's row of R74, and
the row rebuilds it from the word's fields (30_encoding.md R71, R74, R78). -/

namespace Sys2Proof.Laws.EncodeFields

open Sys2Proof

/-- The command's word has its row's pattern under its row's mask, and its fields give the operands back. -/
def Statement (i : Instr) : Prop :=
  encode i &&& i.opcode.mask = i.opcode.pattern ∧ i.opcode.build (encode i) = i

theorem nop : Statement .nop := ⟨mask_encode _, build_encode _⟩

theorem fadd (d a b : Reg) : Statement (.fadd d a b) := ⟨mask_encode _, build_encode _⟩

theorem fmul (d a b : Reg) : Statement (.fmul d a b) := ⟨mask_encode _, build_encode _⟩

theorem fred (d : Reg) : Statement (.fred d) := ⟨mask_encode _, build_encode _⟩

theorem frand (d : Reg) : Statement (.frand d) := ⟨mask_encode _, build_encode _⟩

theorem hclr (n : SlotField) : Statement (.hclr n) := ⟨mask_encode _, build_encode _⟩

theorem hcfgms (n : SlotField) (a : Reg) (w : Width) : Statement (.hcfgms n a w) := ⟨mask_encode _, build_encode _⟩

theorem hcfgmp (n : SlotField) (a b : Reg) (w : Width) : Statement (.hcfgmp n a b w) :=
  ⟨mask_encode _, build_encode _⟩

theorem hcfgp3 (n : SlotField) (a : Reg) (w : Width) : Statement (.hcfgp3 n a w) := ⟨mask_encode _, build_encode _⟩

theorem hsketch (n : SlotField) (w : Width) : Statement (.hsketch n w) := ⟨mask_encode _, build_encode _⟩

theorem heval (d a : Reg) (n : SlotField) : Statement (.heval d a n) := ⟨mask_encode _, build_encode _⟩

theorem hgval (d a : Reg) (n : SlotField) : Statement (.hgval d a n) := ⟨mask_encode _, build_encode _⟩

end Sys2Proof.Laws.EncodeFields
end

