-- ==== Sys2Proof/Laws/Run.lean ====
section
/-! SUPPORT. A run, one step at a time. -/

namespace Sys2Proof.Machine

/-- A run whose first step answers a next state goes on from it. -/
theorem run_of_step (M : Host.Core) {n : Nat} {s s' : M.State} (h : M.step s = .next s') :
    M.run (n + 1) s = M.run n s' := by
  simp only [Host.Core.run, h]

/-- The same of the block's own core. -/
theorem core_run_next {n : Nat} {s s' : State} (h : step s = .next s') :
    Host.Core.run Sys2Proof.core (n + 1) s = Host.Core.run Sys2Proof.core n s' :=
  run_of_step Sys2Proof.core h

/-- A run of one step is the step. -/
theorem core_run_one (s : State) (h : ∃ t, step s = .next t) : Host.Core.run Sys2Proof.core 1 s = step s := by
  obtain ⟨t, ht⟩ := h
  rw [core_run_next ht, ht]
  rfl

end Sys2Proof.Machine
end

