-- ==== Sys2Proof/Laws/Step.lean ====
section
/-! SUPPORT. What a step can do, said once: service a bus access, take a word's offer, reset, or run the engine's cycle;
and what that cycle can do. -/

namespace Sys2Proof.Machine

/-- A step of the engine, whether a cycle is scheduled or nothing is. -/
theorem step_of_engineNext {s : State} (h : s.engineNext = true) :
    step s = State.engineCycle { s with env := s.env.tail } := by
  unfold step
  unfold State.engineNext at h
  rcases e : s.env with _ | ⟨(_ | _ | _ | _), rest⟩ <;> simp [e] at h ⊢
  · cases s
    simp_all
  · rfl

/-- A stall, in the terms of the state. -/
theorem stalled_iff {s : State} {fl : InFlight} (hf : s.inFlight = some fl) :
    s.stalled = true ↔ fl.draws.length < wordDraws fl.cmd ∧ s.rnd = [] := by
  simp [State.stalled, State.rndReady, hf]

/-- Counting a cycle, in the terms of the statements. -/
theorem countCycle_eq {s : State} {fl : InFlight} (hf : s.inFlight = some fl) :
    State.countCycle { s with env := s.env.tail } fl = s.counted fl := by
  simp [State.countCycle, State.counted,
    show State.stalled { s with env := s.env.tail } = true ↔ _ from stalled_iff (s := { s with env := s.env.tail }) hf]

/-- The engine's cycle with a command in flight: before LATENCY(op) it counts and draws, from then on it runs. -/
theorem step_of_inFlight {s : State} {fl : InFlight} (h : s.engineNext = true) (hf : s.inFlight = some fl) :
    step s =
      if fl.elapsed + 1 < s.params.latency (opcOf fl.cmd) then
        .next ((s.counted fl).takeOneDraw fl)
      else (s.counted fl).runLatched fl.cmd := by
  rw [step_of_engineNext h, ← countCycle_eq hf]
  simp only [State.engineCycle, hf]

/-- The engine's cycle with nothing in flight only uses up its input. -/
theorem step_of_idle {s : State} (h : s.engineNext = true) (hf : s.inFlight = none) :
    step s = .next { s with env := s.env.tail } := by
  rw [step_of_engineNext h]
  simp only [State.engineCycle, hf]

/-- One draw where none is needed. -/
theorem takeOneDraw_idle (s : State) {fl : InFlight} (hf : s.drawsHeld = fl.draws) (h : wordDraws fl.cmd ≤ fl.draws.length) :
    s.takeOneDraw fl = { s with inFlight := some { s.flightOr fl.cmd with draws := fl.draws } } := by
  have hm : min (wordDraws fl.cmd) (fl.draws.length + 1) - fl.draws.length = 0 := by omega
  simp [State.takeOneDraw, State.takeDraws, hf, hm]

/-- One draw from the front of the port. -/
theorem takeOneDraw_cons (s : State) {fl : InFlight} {w : RandWord} {rest : List RandWord} (hf : s.drawsHeld = fl.draws)
    (h : fl.draws.length < wordDraws fl.cmd) (hr : s.rnd = w :: rest) :
    s.takeOneDraw fl =
      { s with
        rnd := rest
        inFlight := some { s.flightOr fl.cmd with draws := fl.draws ++ [s.coef w] } } := by
  have hm : min (wordDraws fl.cmd) (fl.draws.length + 1) - fl.draws.length = 1 := by omega
  simp [State.takeOneDraw, State.takeDraws, hf, hm, hr]

/-- What a step that answers a next state has done. -/
theorem step_cases {s t : State} (h : step s = .next t) :
    (∃ r rest, s.env = .bus r :: rest ∧ t = State.busAccess { s with env := rest } r) ∨
    (∃ w rest, s.env = .offer w :: rest ∧ t = State.offerWord { s with env := rest } w) ∨
    (∃ o rest, s.env = .rst o :: rest ∧ t = State.resetBlock { s with env := rest }) ∨
    s.engineNext = true ∧
      (s.inFlight = none ∧ t = { s with env := s.env.tail } ∨
        ∃ fl, s.inFlight = some fl ∧
          (t = (s.counted fl).takeOneDraw fl ∨
            (∃ i, decode fl.cmd = .ok i ∧ exec i (s.counted fl) = .next t) ∨
            (∃ e, decode fl.cmd = .error e ∧ t = (s.counted fl).commit (.error .illegalCmd)))) := by
  by_cases hn : s.engineNext = true
  · refine .inr (.inr (.inr ⟨hn, ?_⟩))
    obtain hf | ⟨fl, hf⟩ := Option.eq_none_or_eq_some s.inFlight
    · rw [step_of_idle hn hf] at h
      exact .inl ⟨hf, (Host.Outcome.next.inj h).symm⟩
    · refine .inr ⟨fl, hf, ?_⟩
      rw [step_of_inFlight hn hf] at h
      split at h
      · exact .inl (Host.Outcome.next.inj h).symm
      · unfold State.runLatched at h
        split at h
        · exact .inr (.inl ⟨_, ‹_›, h⟩)
        · exact .inr (.inr ⟨_, ‹_›, (Host.Outcome.next.inj h).symm⟩)
  · unfold step at h
    unfold State.engineNext at hn
    rcases e : s.env with _ | ⟨(r | w | o | _), rest⟩ <;> simp only [e] at h hn
    · exact absurd trivial hn
    · exact .inl ⟨r, rest, rfl, (Host.Outcome.next.inj h).symm⟩
    · exact .inr (.inl ⟨w, rest, rfl, (Host.Outcome.next.inj h).symm⟩)
    · exact .inr (.inr (.inl ⟨o, rest, rfl, (Host.Outcome.next.inj h).symm⟩))
    · exact absurd trivial hn

/-- What a bus access does to the registers, STATUS and the command in flight: nothing; an acceptance; an error recorded;
a reset; an error cleared; or a write of F or WIDE by an idle block. -/
theorem busAccess_cases (s : State) (r : BusReq) : ∃ x : BusResp,
    s.busAccess r = s.respond x ∨
    (∃ w, r = .write 0x004 w ∧ s.inFlight = none ∧ s.busAccess r = (s.accept w).respond x) ∨
    (∃ c, (c = .cmdOverrun ∨ c = .busyWrite) ∧ s.inFlight ≠ none ∧ s.busAccess r = (s.recordError c).respond x) ∨
    (∃ v, r = .write 0x00C v ∧ v.getLsbD 0 = true ∧ s.busAccess r = s.resetBlock.respond x) ∨
    (∃ v, r = .write 0x00C v ∧ v.getLsbD 0 = false ∧ s.busAccess r = s.clearError.respond x) ∨
    s.inFlight = none ∧
      ((∃ (k : Fin 6) (d : Word32), r = .write (wideAddr k) d ∧
          s.busAccess r =
            State.respond { s with regs := { s.regs with wide := setWord s.regs.wide k.val d } } x) ∨
        ∃ (i : Fin 16) (k : Fin 3) (d : Word32), r = .write (fieldAddr i k) d ∧
          s.busAccess r =
            State.respond
              { s with regs := { s.regs with f := s.regs.f.set i (setWord s.regs.f[i] k.val d) } } x) := by
  cases r with
  | read a => exact ⟨_, .inl rfl⟩
  | write a d =>
    refine ⟨{ rdata := 0, err := target a == .busError }, ?_⟩
    simp only [State.busAccess]
    cases ht : target a with
    | id => exact .inl rfl
    | status => exact .inl rfl
    | param => exact .inl rfl
    | scfg => exact .inl rfl
    | coef => exact .inl rfl
    | reserved => exact .inl rfl
    | busError => exact .inl rfl
    | cmd =>
      cases hf : s.inFlight with
      | none =>
        refine .inr (.inl ⟨d, by rw [target_eq_cmd ht], rfl, ?_⟩)
        simp only [State.writeTarget, State.writeCmd, State.busy, hf]
        rfl
      | some fl =>
        refine .inr (.inr (.inl ⟨.cmdOverrun, .inl rfl, nofun, ?_⟩))
        simp only [State.writeTarget, State.writeCmd, State.busy, hf]
        rfl
    | ctrl =>
      by_cases h0 : d.getLsbD 0 = true
      · refine .inr (.inr (.inr (.inl ⟨d, by rw [target_eq_ctrl ht], h0, ?_⟩)))
        simp only [State.writeTarget, State.writeCtrl, h0, if_true]
      · by_cases h1 : d.getLsbD 1 = true
        · refine .inr (.inr (.inr (.inr (.inl ⟨d, by rw [target_eq_ctrl ht], Bool.eq_false_iff.mpr h0, ?_⟩))))
          simp only [State.writeTarget, State.writeCtrl, h0, h1, if_true, if_false, Bool.false_eq_true]
        · left
          simp only [State.writeTarget, State.writeCtrl, h0, h1, if_false, Bool.false_eq_true]
    | wide k =>
      cases hf : s.inFlight with
      | none =>
        refine .inr (.inr (.inr (.inr (.inr ⟨rfl, .inl ⟨k, d, by rw [target_eq_wide ht], ?_⟩⟩))))
        simp only [State.writeTarget, State.writeRegs, State.busy, hf]
        rfl
      | some fl =>
        refine .inr (.inr (.inl ⟨.busyWrite, .inr rfl, nofun, ?_⟩))
        simp only [State.writeTarget, State.writeRegs, State.busy, hf]
        rfl
    | f i k =>
      cases hf : s.inFlight with
      | none =>
        refine .inr (.inr (.inr (.inr (.inr ⟨rfl, .inr ⟨i, k, d, by rw [target_eq_f ht], ?_⟩⟩))))
        simp only [State.writeTarget, State.writeRegs, State.busy, hf]
        rfl
      | some fl =>
        refine .inr (.inr (.inl ⟨.busyWrite, .inr rfl, nofun, ?_⟩))
        simp only [State.writeTarget, State.writeRegs, State.busy, hf]
        rfl

end Sys2Proof.Machine
end

