-- ==== Sys2Proof/Laws/Words.lean ====
section
/-! SUPPORT. The words of a wider value, bit by bit (20_memory.md R55, R56): what a read of one word gives and what a write
of one word changes. -/

namespace Sys2Proof.Machine

/-- Bit i of word k is bit 32k + i of the value. -/
theorem getLsbD_wordOf {n : Nat} (v : BitVec n) (k i : Nat) :
    (wordOf v k).getLsbD i = (decide (i < 32) && v.getLsbD (32 * k + i)) := by
  simp only [wordOf, BitVec.getLsbD_extractLsb']

/-- A write of word k gives bits 32k to 32k+31 the data and keeps every other bit. -/
theorem getLsbD_setWord {n : Nat} (v : BitVec n) (k : Nat) (d : Word32) (i : Nat) (hi : i < n) :
    (setWord v k d).getLsbD i =
      if 32 * k ≤ i ∧ i < 32 * k + 32 then d.getLsbD (i - 32 * k) else v.getLsbD i := by
  simp only [setWord, BitVec.getLsbD_or, BitVec.getLsbD_and, BitVec.getLsbD_not, BitVec.getLsbD_shiftLeft,
    BitVec.getLsbD_setWidth, BitVec.getLsbD_allOnes, hi, show i - 32 * k < n by omega, decide_true, Bool.true_and]
  by_cases h1 : i < 32 * k
  · rw [if_neg (by omega)]
    simp [h1]
  · by_cases h2 : i < 32 * k + 32
    · rw [if_pos (by omega)]
      simp [h1, show i - 32 * k < 32 by omega]
    · rw [if_neg (by omega), BitVec.getLsbD_of_ge d _ (by omega)]
      simp [show ¬i - 32 * k < 32 by omega]

/-- A write of word k leaves every other word. -/
theorem wordOf_setWord_ne {n : Nat} (v : BitVec n) {k j : Nat} (d : Word32) (h : j ≠ k) :
    wordOf (setWord v k d) j = wordOf v j := by
  apply BitVec.eq_of_getLsbD_eq
  intro i hi
  rw [getLsbD_wordOf, getLsbD_wordOf]
  by_cases hn : 32 * j + i < n
  · rw [getLsbD_setWord _ _ _ _ hn, if_neg (by omega)]
  · rw [BitVec.getLsbD_of_ge _ _ (by omega), BitVec.getLsbD_of_ge _ _ (by omega)]

/-- A word written reads back, its bits beyond the value's width as 0. -/
theorem wordOf_setWord {n : Nat} (v : BitVec n) (k : Nat) (d : Word32) :
    wordOf (setWord v k d) k = d &&& (BitVec.allOnes n).extractLsb' (32 * k) 32 := by
  apply BitVec.eq_of_getLsbD_eq
  intro i hi
  rw [getLsbD_wordOf, BitVec.getLsbD_and, BitVec.getLsbD_extractLsb', BitVec.getLsbD_allOnes]
  by_cases hn : 32 * k + i < n
  · rw [getLsbD_setWord _ _ _ _ hn, if_pos (by omega)]
    simp [hi, hn]
  · rw [BitVec.getLsbD_of_ge _ _ (by omega)]
    simp [hn]

end Sys2Proof.Machine
end

