-- ==== Sys2Proof/Tests/Slice0.lean ====
section
/-! SUPPORT. Tests on the values of spec/95_test_vectors.md, the smoke test of WellFormed, the decoding of one word a
command written out from R74's bit pattern, and, for each obligation with hypotheses, a state and operands that meet
them. -/

namespace Sys2Proof.Tests

open Sys2Proof Sys2Proof.Machine Sys2Proof.Config

/-! ### Small states -/

/-- The reset state with some field registers written. -/
def withF (l : List (Reg × FieldWord)) : State :=
  { State.reset with regs := l.foldl (fun r x => { r with f := r.f.set x.1 x.2 }) Regs.reset }

/-- A state with slot n written as well. -/
def putSlot (s : State) (n : Fin 4) (sl : Slot) : State :=
  { s with regs := { s.regs with slots := s.regs.slots.set n sl } }

/-- A slot from its six fields. -/
def slotOfFields (k : Kind) (w : BitVec 7) (c0 c1 c2 c3 : FieldWord) : Slot :=
  { kind := k, width := w, coef := #v[c0, c1, c2, c3] }

/-- A state with words offered. -/
def offered (s : State) (ws : List RandWord) : State := { s with rnd := ws }

/-- A state with STATUS.ERR and a code. -/
def withError (s : State) (c : ErrCode) : State := { s with status := { s.status with err := true, errcode := c } }

/-- A state whose next input is one bus access. -/
def access (s : State) (r : BusReq) : State := { s with env := [.bus r] }

/-- A state with a command word in flight, nothing drawn, no cycle gone by. -/
def busyWith (s : State) (w : Word32) : State := s.accept w

/-- RAND_BITS as given, every latency 3. -/
def otherParams (extra : Fin 90) : Params := { randExtra := extra, latencyExtra := Vector.replicate 64 2 }

/-- One step that runs the command word w. -/
def runWord (w : Nat) (s : State) : Result := step (s.withFetchWord 32 w)

/-- A part of the next state, if there is one. -/
def seen {α : Type} (r : Result) (f : State → α) : Option α :=
  match r with
  | .next t => some (f t)
  | .fault _ => none
  | .refused _ => none

/-! ### WellFormed refuses a SLOT that names no slot, for every command that uses SLOT (R76 case 4) -/

theorem test_wf_hclr : (Instr.hclr 4).wf = false := by decide
theorem test_wf_hcfgms : (Instr.hcfgms 15 0 8).wf = false := by decide
theorem test_wf_hcfgmp : (Instr.hcfgmp 4 0 1 8).wf = false := by decide
theorem test_wf_hcfgp3 : (Instr.hcfgp3 8 0 8).wf = false := by decide
theorem test_wf_hsketch : (Instr.hsketch 4 8).wf = false := by decide
theorem test_wf_heval : (Instr.heval 0 1 4).wf = false := by decide
theorem test_wf_hgval : (Instr.hgval 0 1 7).wf = false := by decide
theorem test_wf_accepts : (Instr.hcfgmp 3 15 15 127).wf = true := by decide

/-! ### Decoding: one word a command, its bits written out from the pattern column of R74 -/

theorem test_decode_nop : decode 0b00000000000000000000000000000000#32 = .ok .nop := by decide
theorem test_decode_fadd : decode 0b00000000000000_0001_0000_0011_000001#32 = .ok (.fadd 3 0 1) := by decide
theorem test_decode_fmul : decode 0b00000000000000_0111_1110_1001_000010#32 = .ok (.fmul 9 14 7) := by decide
theorem test_decode_fred : decode 0b0000000000000000000000_0101_000011#32 = .ok (.fred 5) := by decide
theorem test_decode_frand : decode 0b0000000000000000000000_0111_000100#32 = .ok (.frand 7) := by decide
theorem test_decode_hclr : decode 0b0000000000_0010_000000000000_010000#32 = .ok (.hclr 2) := by decide
theorem test_decode_hcfgms : decode 0b000_0001000_0001_0000_0000_0000_010001#32 = .ok (.hcfgms 1 0 8) := by decide
theorem test_decode_hcfgmp : decode 0b000_0010100_0010_0001_0110_0000_010010#32 = .ok (.hcfgmp 2 6 1 20) := by decide
theorem test_decode_hcfgp3 : decode 0b000_1000000_0011_0000_1110_0000_010011#32 = .ok (.hcfgp3 3 14 64) := by decide
theorem test_decode_hsketch : decode 0b000_0001010_0011_000000000000_010100#32 = .ok (.hsketch 3 10) := by decide
theorem test_decode_heval : decode 0b0000000000_0000_0000_1000_1001_011000#32 = .ok (.heval 9 8 0) := by decide
theorem test_decode_hgval : decode 0b0000000000_0001_0000_0010_0111_011001#32 = .ok (.hgval 7 2 1) := by decide

/-- The illegal words of 95_test_vectors.md 2.10, each by its cause. -/
theorem test_decode_illegal :
    decode 0x0000003F#32 = .error .opcode ∧ decode 0x00000020#32 = .error .opcode ∧
    decode 0x00000015#32 = .error .opcode ∧ decode 0x80000000#32 = .error .reserved ∧
    decode 0x00000040#32 = .error .unusedField ∧ decode 0x00040001#32 = .error .unusedField ∧
    decode 0x00400002#32 = .error .unusedField ∧ decode 0x02040051#32 = .error .unusedField ∧
    decode 0x003C0010#32 = .error .slotRange ∧ decode 0x00100011#32 = .error .slotRange := by decide

/-- The table word of `HEVAL F9, F8, S0`, read through the host's entry point. -/
theorem test_decodeTableWord : decodeTableWord 32 0x00002258 = some (.heval 9 8 0) := by decide

/-- R78's example line. -/
theorem test_text : (Instr.fadd 3 0 1).text = "FADD F3, F0, F1" := by decide

/-! ### Field arithmetic (95_test_vectors.md 2.1 to 2.5) -/

theorem test_nop_keeps_error :
    seen (runWord 0x00000000 (withError State.reset .invalidParameter)) State.statusWord = some 0x202 := by decide

theorem test_fadd_wraps :
    seen (runWord 0x000040C1 (withF [(0, 0x1FF_FFFF_FFFF_FFFF_FFFF_FFFE), (1, 1)])) (fun t => t.regs.f[3]) = some 0 := by
  decide

theorem test_fadd_same_register :
    seen (runWord 0x00000041 (withF [(0, 0x100_0000_0000_0000_0000_0000)])) (fun t => t.regs.f[1]) = some 1 := by decide

theorem test_fmul_wide_operands :
    seen (runWord 0x00004082 (withF [(0, 0x12_3456_789A_BCDE_F012_3456), (1, 0xFE_DCBA_9876_5432_10FE_DCBA)]))
      (fun t => t.regs.f[2]) = some 0x9A_2BE2_00BA_5525_70AB_C4E0 := by decide

theorem test_fmul_noncanonical :
    seen (runWord 0x00004082 (withF [(0, 0x1FF_FFFF_FFFF_FFFF_FFFF_FFFF), (1, 0x3039)])) (fun t => t.regs.f[2]) = some 0 := by
  decide

theorem test_fred_largest :
    seen (runWord 0x00000143 { State.reset with regs := { Regs.reset with wide := BitVec.allOnes 178 } })
      (fun t => (t.regs.f[5], t.regs.wide)) = some (0, BitVec.allOnes 178) := by decide

theorem test_fred_square :
    seen (runWord 0x00000003
      { State.reset with regs := { Regs.reset with wide := 0x3_FFFF_FFFF_FFFF_FFFF_FFFF_F800_0000_0000_0000_0000_0004 } })
      (fun t => t.regs.f[0]) = some 1 := by decide

theorem test_frand_128_bits :
    seen (runWord 0x000001C4
      (offered { State.reset with params := otherParams 39 } [0xFFFF_FFFF_FFFF_FFFF_FFFF_FFFF_FFFF_FFFF, 5]))
      (fun t => (t.regs.f[7], t.rnd)) = some (0x7F_FFFF_FFFF, [5]) := by decide

theorem test_frand_waits : seen (runWord 0x000001C4 State.reset) State.statusWord = some 1 := by decide

/-- R178: with LATENCY 3, a cycle with no word offered is not counted; one with a word is, and takes it (R66). -/
theorem test_stall_adds_to_latency :
    let s := busyWith { State.reset with params := otherParams 0 } 0x000001C4
    seen (step s) (fun t => t.inFlight.map fun fl => (fl.elapsed, fl.draws)) = some (some (0, [])) ∧
    seen (step (offered s [5, 6])) (fun t => (t.inFlight.map fun fl => (fl.elapsed, fl.draws), t.rnd)) =
      some (some (1, [5]), [6]) := by decide

/-! ### Slot construction (2.6) -/

theorem test_hclr :
    seen (runWord 0x00080010 (putSlot State.reset 2 (slotOfFields .mshift 8 5 0 0 0)))
      (fun t => (t.regs.slots[2], t.regs.slots[2].scfg)) = some (Slot.empty, 0) := by decide

theorem test_hcfgms_63 :
    seen (runWord 0x0FC40011 (withF [(0, 0x1_0000_0000_0000_0010)])) (fun t => (t.regs.slots[1], t.regs.slots[1].scfg)) =
      some (slotOfFields .mshift 63 0x11 0 0 0, 0x3F01) := by decide

theorem test_hcfgms_64_rejected :
    seen (runWord 0x10040011 (putSlot State.reset 1 (slotOfFields .mshift 8 0xFFFF_FFFF_FFFF_FFFF 0 0 0)))
      (fun t => (t.regs.slots[1], t.statusWord)) =
      some (slotOfFields .mshift 8 0xFFFF_FFFF_FFFF_FFFF 0 0 0, 0x202) := by decide

theorem test_hcfgmp_64 :
    seen (runWord 0x10095012 (withF [(4, 0x1FF_FFFF_FFFF_FFFF_FFFF_FFFF), (5, 0x1FF_FFFF_FFFF_FFFF_FFFF_FFFE)]))
      (fun t => (t.regs.slots[2], t.regs.slots[2].scfg)) =
      some (slotOfFields .mmodp 64 0 0x1FF_FFFF_FFFF_FFFF_FFFF_FFFE 0 0, 0x4002) := by decide

theorem test_hcfgmp_65_rejected :
    seen (runWord 0x10495012 State.reset) (fun t => (t.regs.slots[2], t.statusWord)) = some (Slot.empty, 0x202) := by
  decide

theorem test_hcfgp3_wraps :
    seen (runWord 0x100C3813 (withF [(14, 0xE), (15, 0x1FF_FFFF_FFFF_FFFF_FFFF_FFFF), (0, 0xA0), (1, 0xA1)]))
      (fun t => (t.regs.slots[3], t.regs.slots[3].scfg)) = some (slotOfFields .poly3 64 0xE 0 0xA0 0xA1, 0x4003) := by
  decide

theorem test_hcfgp3_0_rejected :
    seen (runWord 0x00001013 State.reset) (fun t => (t.regs.slots[0], t.statusWord)) = some (Slot.empty, 0x202) := by
  decide

theorem test_hsketch_order :
    seen (runWord 0x10040014 (offered State.reset
      [0x1FF_FFFF_FFFF_FFFF_FFFF_FFFF, 0x1FF_FFFF_FFFF_FFFF_FFFF_FFFE, 0, 0x100_0000_0000_0000_0000_0000, 0x55]))
      (fun t => (t.regs.slots[1], t.rnd)) =
      some (slotOfFields .poly3 64 0 0x1FF_FFFF_FFFF_FFFF_FFFF_FFFE 0 0x100_0000_0000_0000_0000_0000, [0x55]) := by decide

/-- R66: one word a cycle before LATENCY(op). -/
theorem test_hsketch_one_word_a_cycle :
    seen (step (offered (busyWith { State.reset with params := otherParams 0 } 0x028C0014) [1, 2, 3, 4]))
      (fun t => (t.inFlight.map fun fl => (fl.elapsed, fl.draws), t.rnd)) = some (some (1, [1]), [2, 3, 4]) := by decide

theorem test_hsketch_0_takes_nothing :
    seen (runWord 0x000C0014 (offered State.reset [1, 2, 3, 4]))
      (fun t => (t.regs.slots[3], t.statusWord, t.rnd)) = some (Slot.empty, 0x202, [1, 2, 3, 4]) := by decide

/-! ### Hash evaluation (2.7 to 2.9) -/

theorem test_heval_mshift_63 :
    seen (runWord 0x000408D8
      (putSlot (withF [(2, 0x123_4567_89AB_CDEF)]) 1 (slotOfFields .mshift 63 0x9E37_79B9_7F4A_7C15 0 0 0)))
      (fun t => (t.regs.f[3], t.statusWord)) = some (0x649_D3DB_CD76_D44D, 0) := by decide

theorem test_heval_sign_is_bit_88 :
    seen (runWord 0x000C08D8
      (putSlot (withF [(2, 0x3039)]) 3 (slotOfFields .poly3 64 0x100_0000_0000_0000_0000_0000 0 0 0)))
      (fun t => (t.regs.f[3], t.statusWord)) = some (0, 0x004) := by decide

theorem test_hgval_mmodp_largest :
    seen (runWord 0x00080919
      (putSlot (withF [(2, 0xFFFF_FFFF_FFFF_FFFF)]) 2
        (slotOfFields .mmodp 64 0x1FF_FFFF_FFFF_FFFF_FFFF_FFFE 0x1FF_FFFF_FFFF_FFFF_FFFF_FFFE 0 0)))
      (fun t => t.regs.f[4]) = some 0x1FF_FFFE_FFFF_FFFF_FFFF_FFFF := by decide

theorem test_hgval_poly3_largest :
    seen (runWord 0x000C0919
      (putSlot (withF [(2, 0xFFFF_FFFF_FFFF_FFFF)]) 3
        (slotOfFields .poly3 64 0x1FF_FFFF_FFFF_FFFF_FFFF_FFFE 0x1FF_FFFF_FFFF_FFFF_FFFF_FFFE 0x1FF_FFFF_FFFF_FFFF_FFFF_FFFE
          0x1FF_FFFF_FFFF_FFFF_FFFF_FFFE)))
      (fun t => (t.regs.f[4], t.statusWord)) = some (0x1FF_FFFE_0000_00FF_FFFF_BFFF, 0) := by decide

/-! ### Errors, hazards and reset (2.10, 2.11, 2.13, 2.14) -/

theorem test_illegal_word_records : seen (runWord 0x20000001 State.reset) State.statusWord = some 0x102 := by decide

theorem test_unconfigured_after_invalid :
    seen (runWord 0x00040018 (withError State.reset .invalidParameter)) State.statusWord = some 0x202 := by decide

theorem test_srst_dominates :
    seen (step (access (withError (withF [(0, 5)]) .illegalCmd) (.write 0x00C 0x3)))
      (fun t => (t.regs.f[0], t.statusWord)) = some (0, 0) := by decide

theorem test_busy_write :
    seen (step (access (busyWith (withF [(2, 0x77)]) 0x000001C4) (.write 0x120 0x99)))
      (fun t => (t.regs.f[2], t.statusWord)) = some (0x77, 0x503) := by decide

theorem test_overrun_keeps_first_error :
    seen (step (access (withError (busyWith State.reset 0x000001C4) .busyWrite) (.write 0x004 0)))
      State.statusWord = some 0x503 := by decide

theorem test_eclr_while_busy :
    seen (step (access (withError (busyWith State.reset 0x000001C4) .busyWrite) (.write 0x00C 0x2)))
      State.statusWord = some 0x001 := by decide

/-! ### The register interface (2.12) -/

theorem test_param_128 :
    ({ State.reset with params := otherParams 39 }.busRead 0x010) = { rdata := 0x59800410, err := false } := by decide

theorem test_misaligned_write :
    seen (step (access State.reset (.write 0x101 0x1234))) (fun t => (t.regs.f[0], t.statusWord, t.responses)) =
      some (0, 0, [{ rdata := 0, err := true }]) := by decide

theorem test_field_word_2_is_25_bits :
    seen (step (access State.reset (.write 0x108 0xFFFFFFFF))) (fun t => (t.regs.f[0], (t.busRead 0x108).rdata)) =
      some (0x1FF_FFFF_0000_0000_0000_0000, 0x01FFFFFF) := by decide

theorem test_wide_word_5_is_18_bits :
    seen (step (access State.reset (.write 0x034 0xFFFFFFFF))) (fun t => (t.busRead 0x034).rdata) =
      some 0x0003FFFF := by decide

theorem test_slot_reads :
    let s := putSlot State.reset 1 (slotOfFields .mshift 8 0xFFFF_FFFF_FFFF_FFFF 0 0 0)
    (s.busRead 0x280).rdata = 0x801 ∧ (s.busRead 0x290).rdata = 0xFFFFFFFF ∧ (s.busRead 0x294).rdata = 0xFFFFFFFF ∧
      (s.busRead 0x298).rdata = 0 := by decide

theorem test_word_order :
    let s := busAccesses State.reset (hostWriteField 3 0x1AB_CDEF_0123_4567_89AB_CDEF)
    (s.busRead 0x130).rdata = 0x89ABCDEF ∧ (s.busRead 0x134).rdata = 0x01234567 ∧
      (s.busRead 0x138).rdata = 0x01ABCDEF := by decide

/-! ### Witnesses: for each obligation with hypotheses, values that meet them, clause by clause -/

/-- A word that matches a row of R74, and one with the row's OPC that does not. -/
abbrev rowHyps (mask pattern good bad : Word32) : Prop :=
  good &&& mask = pattern ∧ opcOf bad = opcOf pattern ∧ bad &&& mask ≠ pattern

/-- The same of a row that uses SLOT, with a legal SLOT in `good`, and a word that matches with an illegal one. -/
abbrev slotRowHyps (mask pattern good high bad : Word32) : Prop :=
  rowHyps mask pattern good bad ∧ (slotOf good).toNat < 4 ∧ high &&& mask = pattern ∧ 4 ≤ (slotOf high).toNat

/-- One slot of each kind, at its largest width. -/
def fourSlots : State :=
  putSlot (putSlot (putSlot (withF [(2, BitVec.allOnes 89)]) 1 (slotOfFields .mshift 63 0xFFFF_FFFF_FFFF_FFFF 0 0 0)) 2
    (slotOfFields .mmodp 64 0x1FF_FFFF_FFFF_FFFF_FFFF_FFFE 0x1FF_FFFF_FFFF_FFFF_FFFF_FFFE 0 0)) 3
    (slotOfFields .poly3 64 0x100_0000_0000_0000_0000_0000 0 0 0)

/-- FRAND F7 in flight with its draw held. -/
def drawHeld : State :=
  { State.reset with
    inFlight := some
      { cmd := 0x000001C4, snapshot := Regs.reset, draws := [0x1FF_FFFF_FFFF_FFFF_FFFF_FFFE], elapsed := 0 } }

theorem witness_DecodeOfEncode :
    ∀ i ∈ [Instr.nop, .fadd 15 0 15, .fmul 0 15 0, .fred 15, .frand 15, .hclr 3, .hcfgms 3 15 127, .hcfgmp 0 15 15 0,
      .hcfgp3 3 15 127, .hsketch 3 127, .heval 15 15 3, .hgval 15 0 0], i.wf = true := by decide

theorem witness_EncodeOfDecode : decode 0x1FCFFC12#32 = .ok (.hcfgmp 3 15 15 127) := by decide

theorem witness_LegalWordsAreTheMapsRows :
    ∃ (w : Word32) (o o' : Opcode), w &&& o.mask = o.pattern ∧ w &&& o'.mask = o'.pattern :=
  ⟨0x1FCFFC12, .hcfgmp, .hcfgmp, by decide, by decide⟩

/-- FRAND F7 in flight with every LATENCY 3 and no word taken. -/
def slowDraw : State := busyWith { State.reset with params := otherParams 0 } 0x000001C4

/-- One that counts, and one that is a stall at LATENCY(op). -/
theorem witness_StepRunsDecodedCommand :
    (∃ (s : State) (fl : InFlight) (i : Instr), s.engineNext = true ∧ s.inFlight = some fl ∧
      s.params.latency (opcOf fl.cmd) ≤ fl.elapsed + 1 ∧ decode fl.cmd = .ok i) ∧
    ∃ (s : State) (fl : InFlight) (i : Instr), s.engineNext = true ∧ s.inFlight = some fl ∧
      s.params.latency (opcOf fl.cmd) ≤ fl.elapsed + 1 ∧ decode fl.cmd = .ok i ∧ s.stalled = true :=
  ⟨⟨{ busyWith (withF [(0, 3)]) 0x000040C1 with env := [.cycle] }, _, .fadd 3 0 1, by decide, rfl, by decide, by decide⟩,
    ⟨busyWith State.reset 0x000001C4, _, .frand 7, by decide, rfl, by decide, by decide, by decide⟩⟩

/-- A command with a draw to wait for, and one with none. -/
theorem witness_PlacedWordRunsNext :
    (decode (BitVec.ofNat 32 0x028C0014) = .ok (.hsketch 3 10) ∧ 0 < drawsNeeded (.hsketch 3 10) ∧ State.reset.rnd = []) ∧
    decode (BitVec.ofNat 32 0x000040C1) = .ok (.fadd 3 0 1) ∧ ¬0 < drawsNeeded (.fadd 3 0 1) := by decide

/-- Idle; a stall before LATENCY(op) and one at it; no draw needed before it; and a word to take before it. -/
theorem witness_CycleBeforeLatencyOnlyDraws :
    (State.reset.engineNext = true ∧ State.reset.inFlight = none) ∧
    (∃ fl : InFlight, slowDraw.engineNext = true ∧ slowDraw.inFlight = some fl ∧ fl.draws.length < wordDraws fl.cmd ∧
      slowDraw.rnd = [] ∧ fl.elapsed + 1 < slowDraw.params.latency (opcOf fl.cmd)) ∧
    (∃ (s : State) (fl : InFlight), s.engineNext = true ∧ s.inFlight = some fl ∧ fl.draws.length < wordDraws fl.cmd ∧
      s.rnd = [] ∧ s.params.latency (opcOf fl.cmd) ≤ fl.elapsed + 1) ∧
    (∃ (s : State) (fl : InFlight), s.engineNext = true ∧ s.inFlight = some fl ∧
      fl.elapsed + 1 < s.params.latency (opcOf fl.cmd) ∧ wordDraws fl.cmd ≤ fl.draws.length) ∧
    ∃ (s : State) (fl : InFlight) (w : RandWord) (rest : List RandWord), s.engineNext = true ∧ s.inFlight = some fl ∧
      fl.elapsed + 1 < s.params.latency (opcOf fl.cmd) ∧ fl.draws.length < wordDraws fl.cmd ∧ s.rnd = w :: rest :=
  ⟨by decide, ⟨_, by decide, rfl, by decide, by decide, by decide⟩,
    ⟨busyWith State.reset 0x000001C4, _, by decide, rfl, by decide, by decide, by decide⟩,
    ⟨busyWith { State.reset with params := otherParams 0 } 0x000040C1, _, by decide, rfl, by decide, by decide⟩,
    ⟨offered slowDraw [1, 2], _, 1, [2], by decide, rfl, by decide, by decide, rfl⟩⟩

/-- The four causes, each with its own word, one before its latency and one at it. -/
theorem witness_IllegalWordRecordsOnlyIllegalCmd :
    (∀ o : Opcode, opcOf 0x00000005#32 ≠ o.code) ∧ rsvOf 0x20000001#32 ≠ 0 ∧
    (∃ o : Opcode, opcOf 0x00000403#32 = o.code ∧ 0x00000403#32 &&& o.mask ≠ o.pattern) ∧
    (∃ o : Opcode, opcOf 0x00100018#32 = o.code ∧ (o.build 0x00100018#32).slot?.isSome = true ∧
      4 ≤ (slotOf 0x00100018#32).toNat) ∧
    (∃ (s : State) (fl : InFlight), s.engineNext = true ∧ s.inFlight = some fl ∧ fl.cmd = 0x00100018#32 ∧
      s.params.latency (opcOf fl.cmd) ≤ fl.elapsed + 1) ∧
    ∃ (s : State) (fl : InFlight), s.engineNext = true ∧ s.inFlight = some fl ∧ fl.cmd = 0x00000005#32 ∧
      fl.elapsed + 1 < s.params.latency (opcOf fl.cmd) :=
  ⟨by intro o; cases o <;> decide, by decide, ⟨.fred, by decide⟩, ⟨.heval, by decide⟩,
    ⟨busyWith State.reset 0x00100018, _, by decide, rfl, by decide, by decide⟩,
    ⟨busyWith { State.reset with params := otherParams 0 } 0x00000005, _, by decide, rfl, by decide, by decide⟩⟩

theorem witness_CmdWriteAcceptsOrOverruns :
    (∃ (s : State) (w : Word32) (rest : List Input), s.env = .bus (.write 0x004 w) :: rest ∧ s.inFlight = none) ∧
    ∃ (s : State) (w : Word32) (rest : List Input), s.env = .bus (.write 0x004 w) :: rest ∧ s.inFlight ≠ none :=
  ⟨⟨access State.reset (.write 0x004 0x000040C1), _, _, rfl, by decide⟩,
    ⟨access (busyWith State.reset 0x000001C4) (.write 0x004 0x000040C1), _, _, rfl, by decide⟩⟩

theorem witness_NoDrawCommandCommitsAtItsLatency :
    ∃ (s : State) (fl : InFlight) (i : Instr), s.env = [] ∧ s.inFlight = some fl ∧ decode fl.cmd = .ok i ∧
      drawsNeeded i = 0 ∧ fl.elapsed < s.params.latency (opcOf fl.cmd) :=
  ⟨busyWith { State.reset with params := otherParams 0 } 0x000040C1, _, .fadd 3 0 1, rfl, rfl, by decide, by decide,
    by decide⟩

theorem witness_StarvedCommandHangs :
    (∃ (s : State) (fl : InFlight), s.env = [] ∧ s.rnd = [] ∧ s.inFlight = some fl ∧
      fl.draws.length < wordDraws fl.cmd ∧ fl.cmd = 0x000001C4) ∧
    ∃ (s : State) (fl : InFlight), s.env = [] ∧ s.rnd = [] ∧ s.inFlight = some fl ∧
      fl.draws.length < wordDraws fl.cmd ∧ fl.draws.length = 3 :=
  ⟨⟨busyWith State.reset 0x000001C4, _, rfl, rfl, rfl, by decide, by decide⟩,
    ⟨{ State.reset with
        inFlight := some { cmd := 0x028C0014, snapshot := Regs.reset, draws := [1, 2, 3], elapsed := 7 } },
      _, rfl, rfl, rfl, by decide, by decide⟩⟩

theorem witness_ReduceIsModP :
    2 ^ 178 - 1 < 2 ^ 178 ∧ (2 * p < 2 ^ 178 ∧ 2 * p ≠ 0 ∧ 2 * p % p = 0) ∧ (1 ≤ p - 1 ∧ p - 1 < p) := by decide

theorem witness_NopOnlyCompletes : rowHyps 0xFFFFFFFF 0x00000000 0x00000000 0x00000040 := by decide

theorem witness_FaddAddsModP : rowHyps 0xFFFC003F 0x00000001 0x0003FFC1 0x20000001 := by decide

theorem witness_FmulMultipliesModP : rowHyps 0xFFFC003F 0x00000002 0x0003FFC2 0x00400002 := by decide

theorem witness_FredReducesWide : rowHyps 0xFFFFFC3F 0x00000003 0x000003C3 0x00000403 := by decide

/-- The word held already, the word taken now, and neither. -/
theorem witness_FrandWritesOneDraw :
    rowHyps 0xFFFFFC3F 0x00000004 0x000003C4 0x00000404 ∧
    (drawHeld.rnd = [] ++ [] ∧
      drawHeld.drawsHeld ++ (([] : List RandWord).map fun w => BitVec.ofNat 89 (drawValue drawHeld.params w)) =
        [BitVec.ofNat 89 (p - 1)]) ∧
    ((offered State.reset [5, 6]).rnd = [5] ++ [6] ∧
      State.reset.drawsHeld ++ ([5].map fun w => BitVec.ofNat 89 (drawValue State.reset.params w)) =
        [BitVec.ofNat 89 5]) ∧
    State.reset.drawsHeld = [] ∧ State.reset.rnd = [] := by decide

theorem witness_DrawCommandWaitsForWords :
    State.reset.drawsHeld.length + State.reset.rnd.length < drawsNeeded (.frand 7) ∧
    State.reset.drawsHeld.length + (offered State.reset [1, 2, 3]).rnd.length < drawsNeeded (.hsketch 3 64) := by decide

theorem witness_HclrEmptiesSlot : slotRowHyps 0xFFC3FFFF 0x00000010 0x000C0010 0x003C0010 0x00000050 := by decide

theorem witness_HcfgmsBuildsMultiplyShift :
    slotRowHyps 0xE003C3FF 0x00000011 0x1FCC3C11 0x00100011 0x02040051 ∧
    (∀ w ∈ [(1 : Width), 63], 1 ≤ w.val ∧ w.val ≤ 63) ∧ ∀ w ∈ [(0 : Width), 64, 127], ¬(1 ≤ w.val ∧ w.val ≤ 63) := by
  decide

theorem witness_HcfgmpBuildsMultiplyModP :
    slotRowHyps 0xE00003FF 0x00000012 0x1FCFFC12 0x00100012 0x20000012 ∧
    (∀ w ∈ [(1 : Width), 64], 1 ≤ w.val ∧ w.val ≤ 64) ∧ ∀ w ∈ [(0 : Width), 65, 127], ¬(1 ≤ w.val ∧ w.val ≤ 64) := by
  decide

theorem witness_HcfgpBuildsPolynomial :
    slotRowHyps 0xE003C3FF 0x00000013 0x100C3813 0x003C0013 0x00004013 ∧
    (∀ w ∈ [(1 : Width), 64], 1 ≤ w.val ∧ w.val ≤ 64) ∧ ∀ w ∈ [(0 : Width), 65, 127], ¬(1 ≤ w.val ∧ w.val ≤ 64) := by
  decide

/-- One draw held and three taken, too few, and the widths at the edges. -/
theorem witness_HsketchBuildsFromFourDraws :
    slotRowHyps 0xE003FFFF 0x00000014 0x028C0014 0x00100014 0x00000054 ∧
    ((offered drawHeld [2, 3, 4, 5]).rnd = [2, 3, 4] ++ [5] ∧
      drawHeld.drawsHeld ++ ([2, 3, 4].map fun w => BitVec.ofNat 89 (drawValue drawHeld.params w)) =
        [BitVec.ofNat 89 (p - 1), BitVec.ofNat 89 2, BitVec.ofNat 89 3, BitVec.ofNat 89 4]) ∧
    drawHeld.drawsHeld.length + (offered drawHeld [2, 3]).rnd.length < 4 ∧
    (∀ w ∈ [(1 : Width), 64], 1 ≤ w.val ∧ w.val ≤ 64) ∧ ∀ w ∈ [(0 : Width), 65, 127], ¬(1 ≤ w.val ∧ w.val ≤ 64) := by
  decide

theorem witness_SketchSlotEqualsGivenPolynomial :
    let s := offered (withF [(14, 1), (15, 2), (0, 3), (1, 4)]) [1, 2, 3, 4, 5]
    (∀ w ∈ [(1 : Width), 64], 1 ≤ w.val ∧ w.val ≤ 64) ∧ s.drawsHeld = [] ∧ s.rnd = 1 :: 2 :: 3 :: 4 :: [5] ∧ drawValue s.params 1 = s.groupNat 14 0 ∧
      drawValue s.params 2 = s.groupNat 14 1 ∧ drawValue s.params 3 = s.groupNat 14 2 ∧
      drawValue s.params 4 = s.groupNat 14 3 := by decide

theorem witness_MissingSlotRecordsOnlyIllegalCmd :
    (Instr.hclr 4).slot? = some 4 ∧ (Instr.hgval 0 0 15).slot? = some 15 ∧ 4 ≤ (4 : SlotField).val ∧
      4 ≤ (15 : SlotField).val := by decide

theorem witness_HevalWritesHashAndSign :
    slotRowHyps 0xFFC3C03F 0x00000018 0x000C3FD8 0x00100018 0x00004018 ∧
    (fourSlots.slotAt 0).kind = .none ∧ (fourSlots.slotAt 1).kind = .mshift ∧ (fourSlots.slotAt 2).kind = .mmodp ∧
    (fourSlots.slotAt 3).kind = .poly3 := by decide

theorem witness_HgvalWritesRawValue :
    slotRowHyps 0xFFC3C03F 0x00000019 0x000C3FD9 0x00100019 0x00004019 ∧
    (fourSlots.slotAt 0).kind = .none ∧ (fourSlots.slotAt 1).kind = .mshift ∧ (fourSlots.slotAt 2).kind = .mmodp ∧
    (fourSlots.slotAt 3).kind = .poly3 := by decide

/-- Each kind's slot meets the premises, and the POLY3 one gives SIGN = 1. -/
theorem witness_HashOutputsAreInRange :
    (∀ n ∈ [(1 : Fin 4), 2, 3], (fourSlots.slotAt n).wf = true ∧ (fourSlots.slotAt n).kind ≠ .none) ∧
    seen (exec (.heval 0 2 3) fourSlots) (fun t => t.status.sign) = some true := by decide

theorem witness_FirstErrorStaysUntilCleared :
    (State.reset.status.err = false ∧ (withError State.reset .busyWrite).status.err = true) ∧
    (∃ t : State, step (access (withError State.reset .busyWrite) (.read 0)) = .next t) ∧
    (∃ (v : Word32) (rest : List Input), (access (withError State.reset .busyWrite) (.write 0x00C 2)).env =
      .bus (.write 0x00C v) :: rest ∧ v.getLsbD 1 = true) ∧
    ∃ t : State, step (access (withError State.reset .busyWrite) (.write 0x00C 2)) = .next t ∧ t.status.err = false :=
  ⟨by decide, ⟨_, rfl⟩, ⟨_, _, rfl, by decide⟩, ⟨_, rfl, by decide⟩⟩

theorem witness_ErroredCommandTouchesOnlyStatus :
    (∃ t : State, exec (.hcfgms 3 0 64) fourSlots = .next t ∧ t.status.errcode ≠ fourSlots.status.errcode) ∧
    ∃ t : State, exec (.heval 0 1 0) fourSlots = .next t ∧ t.status.errcode ≠ fourSlots.status.errcode :=
  ⟨⟨_, rfl, by decide⟩, ⟨_, rfl, by decide⟩⟩

/-- Bit 0, bit 1 alone, and neither, each while busy. -/
theorem witness_CtrlWriteResetsOrClears :
    (∀ v ∈ [(1 : Word32), 3, 0xFFFFFFFF], v.getLsbD 0 = true) ∧
    (∀ v ∈ [(2 : Word32), 0xFFFFFFFE], v.getLsbD 0 = false ∧ v.getLsbD 1 = true) ∧
    (∀ v ∈ [(0 : Word32), 0xFFFFFFFC], v.getLsbD 0 = false ∧ v.getLsbD 1 = false) ∧
    ∀ v : Word32, (access drawHeld (.write 0x00C v)).env = .bus (.write 0x00C v) :: [] :=
  ⟨by simp, by simp, by simp, fun _ => rfl⟩

theorem witness_ResetLeavesEveryTableValue :
    (∃ (s t : State) (o : Option BusReq) (rest : List Input), s.env = .rst o :: rest ∧ step s = .next t) ∧
    ∃ (s t : State) (v : Word32) (rest : List Input), s.env = .bus (.write 0x00C v) :: rest ∧ v.getLsbD 0 = true ∧
      step s = .next t :=
  ⟨⟨{ drawHeld with env := [.rst (some (.read 8))] }, _, _, _, rfl, rfl⟩,
    ⟨access drawHeld (.write 0x00C 1), _, _, _, rfl, by decide, rfl⟩⟩

theorem witness_RstResetsTheBlock :
    ∃ (s : State) (o : Option BusReq) (rest : List Input), s.env = .rst o :: rest ∧ s.busy = true ∧ o ≠ none :=
  ⟨{ drawHeld with env := [.rst (some (.read 8)), .cycle] }, _, _, rfl, by decide, by decide⟩

theorem witness_BusErrorHasNoEffect :
    [(0x001 : Addr), 0x002, 0x3FF, 0x400, 0xFFC, 0xFFF].all fun a => decide (a.toNat % 4 ≠ 0 ∨ 0x400 ≤ a.toNat) := by
  decide

theorem witness_ReadOnlyWritesIgnored :
    ([(0x000 : Addr), 0x008, 0x010, 0x200, 0x248, 0x3C8].all fun a => decide (a.toNat % 4 = 0 ∧ a.toNat < 0x400)) ∧
    ¬ReservedAddr 0x200 ∧ ¬ReservedAddr 0x210 ∧ ¬ReservedAddr 0x248 ∧ ¬ReservedAddr 0x380 ∧ ¬ReservedAddr 0x3C8 := by
  decide

theorem witness_ReservedAndWriteOnlyReadZero :
    ([(0x004 : Addr), 0x00C, 0x014, 0x038, 0x10C, 0x204, 0x250, 0x3FC].all fun a =>
      decide (a.toNat % 4 = 0 ∧ a.toNat < 0x400)) ∧
    [0x014, 0x01C, 0x038, 0x0FC, 0x10C, 0x1FC, 0x204, 0x21C, 0x250, 0x3FC].all fun n => decide (ReservedAddr n) := by
  decide

theorem witness_IdAndParamAreConstant : ∃ s t : State, step s = .next t ∧ s.env = [.rst none] :=
  ⟨{ State.reset with params := otherParams 89, env := [.rst none] }, _, rfl, rfl⟩

theorem witness_FieldWordWriteReadsBack : State.reset.inFlight = none ∧ (0x100 : Addr) ≠ fieldAddr 15 2 := by decide

theorem witness_WideWordWriteReadsBack : State.reset.inFlight = none ∧ (0x030 : Addr) ≠ wideAddr 5 := by decide

theorem witness_HostWritesWholeRegisters : fourSlots.inFlight = none := by decide

theorem witness_ReadChangesNothing :
    ∃ (s : State) (a : Addr) (rest : List Input), s.env = .bus (.read a) :: rest ∧ s.busy = true :=
  ⟨access drawHeld (.read 0x170), _, _, rfl, by decide⟩

/-- Every range of addresses at both ends, on a busy block. -/
theorem witness_BusyRegisterWriteIsDropped :
    ([(0x020 : Addr), 0x034, 0x100, 0x108, 0x1F0, 0x1F8].all fun a => decide (a.toNat % 4 = 0 ∧
      (0x020 ≤ a.toNat ∧ a.toNat < 0x038 ∨ 0x100 ≤ a.toNat ∧ a.toNat < 0x200 ∧ a.toNat % 0x10 ≠ 0xC))) ∧
    ∃ (s : State) (d : Word32) (rest : List Input), s.env = .bus (.write 0x1F8 d) :: rest ∧ s.inFlight ≠ none :=
  ⟨by decide, access drawHeld (.write 0x1F8 1), _, _, rfl, by decide⟩

theorem witness_OneResponsePerAccess :
    (∃ s t : State, step s = .next t ∧ ∃ (r : BusReq) (rest : List Input), s.env = .bus r :: rest) ∧
    ∃ s t : State, step s = .next t ∧ s.env = [.rst (some (.read 0))] :=
  ⟨⟨access State.reset (.read 0), _, rfl, _, _, rfl⟩, ⟨{ State.reset with env := [.rst (some (.read 0))] }, _, rfl, rfl⟩⟩

/-- A state that meets the invariant with a draw held, and the step that commits it. -/
theorem witness_StepKeepsInvariant : drawHeld.Inv ∧ ∃ t : State, step drawHeld = .next t ∧ t.busy = false :=
  ⟨⟨by decide, by decide, fun _ h => by cases h; rfl, fun _ h => by cases h; exact ⟨by decide, by simp [p]⟩⟩, _, rfl, by decide⟩

/-- By a command, by the host with p itself, by rst and by SRST. -/
theorem witness_OnlyHostWritesNoncanonical :
    (drawHeld.Inv ∧ ∃ t : State, step drawHeld = .next t ∧ t.regs.f[(7 : Reg)] ≠ drawHeld.regs.f[(7 : Reg)]) ∧
    (∃ s t : State, s.Inv ∧ step s = .next t ∧ t.regs.f[(0 : Reg)] ≠ s.regs.f[(0 : Reg)] ∧
      ¬t.regs.f[(0 : Reg)].toNat < p) ∧
    (∃ s t : State, s.env = [.rst none] ∧ step s = .next t ∧ t.regs.f[(0 : Reg)] ≠ s.regs.f[(0 : Reg)]) ∧
    ∃ s t : State, s.env = [.bus (.write 0x00C 1)] ∧ step s = .next t ∧ t.regs.f[(0 : Reg)] ≠ s.regs.f[(0 : Reg)] :=
  ⟨⟨witness_StepKeepsInvariant.1, _, rfl, by decide⟩,
    ⟨access (withF [(0, 0x1FF_FFFF_FFFF_FFFF_FFFF_FFFE)]) (.write 0x100 0xFFFFFFFF), _,
      ⟨by decide, by decide, nofun, nofun⟩, rfl, by decide, by decide⟩,
    ⟨{ withF [(0, 5)] with env := [.rst none] }, _, rfl, rfl, by decide⟩,
    ⟨access (withF [(0, 5)]) (.write 0x00C 1), _, rfl, rfl, by decide⟩⟩

theorem witness_OnlyHevalOrResetWritesSign :
    ∃ s t : State, step s = .next t ∧ t.status.sign ≠ s.status.sign ∧ s.inFlight ≠ none :=
  ⟨busyWith fourSlots 0x000C08D8, _, rfl, by decide, by decide⟩

theorem witness_OnlyConstructionOrResetWritesSlots :
    ∃ s t : State, step s = .next t ∧ t.regs.slots ≠ s.regs.slots ∧ s.inFlight ≠ none :=
  ⟨busyWith fourSlots 0x000C0010, _, rfl, by decide, by decide⟩

theorem witness_OnlyHostOrResetWritesWide :
    ∃ s t : State, step s = .next t ∧ t.regs.wide ≠ s.regs.wide :=
  ⟨access State.reset (.write 0x034 1), _, rfl, by decide⟩

/-- An offer behind a word already there; a step that takes words; and a reset that leaves them. -/
theorem witness_WordsAreTakenOnlyWhenReady :
    (∃ s t : State, s.env = [.offer 9] ∧ step s = .next t ∧ t.rnd = [1, 9]) ∧
    (∃ s t : State, step s = .next t ∧ s.engineNext = true ∧ t.rnd ≠ s.rnd) ∧
    ∃ s t : State, s.env = [.rst none] ∧ step s = .next t ∧ t.rnd = [1] :=
  ⟨⟨{ offered State.reset [1] with env := [.offer 9] }, _, rfl, rfl, by decide⟩,
    ⟨busyWith (offered State.reset [1, 2, 3, 4, 5]) 0x028C0014, _, rfl, by decide, by decide⟩,
    ⟨{ offered State.reset [1] with env := [.rst none] }, _, rfl, rfl, by decide⟩⟩

theorem witness_AcceptedCommandIsOutOfReach :
    (∃ (s t : State) (rest : List Input), s.env = .bus (.write 0x170 1) :: rest ∧ s.inFlight ≠ none ∧ step s = .next t) ∧
    ∃ (s t : State) (rest : List Input), s.env = .bus (.write 0x00C 2) :: rest ∧ s.inFlight ≠ none ∧
      (2 : Word32).getLsbD 0 = false ∧ step s = .next t :=
  ⟨⟨access drawHeld (.write 0x170 1), _, _, rfl, by decide, rfl⟩,
    ⟨access drawHeld (.write 0x00C 2), _, _, rfl, by decide, by decide, rfl⟩⟩

/-- Each shape of command, and an address outside F[d] beside it. -/
theorem witness_FieldCommandsFrameOnTheBus :
    (∀ i ∈ [Instr.nop, .fadd 0 1 2, .fmul 0 1 2, .fred 0, .frand 0, .heval 0 1 3, .hgval 0 1 3],
      (seen (exec i fourSlots) State.busy).isSome = true) ∧
    (0x10C : Addr) ≠ 0x008 ∧ ∀ k : Fin 3, (0x10C : Addr) ≠ fieldAddr 0 k := by decide

/-- Each construction command on slot 1, and the addresses just outside its window. -/
theorem witness_SlotCommandsFrameOnTheBus :
    (∀ i ∈ [Instr.hclr 1, .hcfgms 1 0 63, .hcfgp3 1 0 64, .hcfgmp 1 0 1 64, .hsketch 1 64],
      (seen (exec i fourSlots) State.busy).isSome = true) ∧
    [(0x27C : Addr), 0x300].all fun a => decide (a ≠ 0x008 ∧
      ¬(0x200 + 0x80 * (1 : SlotField).val ≤ a.toNat ∧ a.toNat < 0x200 + 0x80 * ((1 : SlotField).val + 1))) := by
  decide

end Sys2Proof.Tests
end

section
/-! SUPPORT. Canonical values and well-formed slots (10_state.md R21, R24; 40_field_arith.md R91, R99): what every
command writes is below p or in R24's table. -/

namespace Sys2Proof.Machine

open Config

/-! ### Canonical values (40_field_arith.md R91) -/

/-- Reduce brings every value of at most 178 bits below p. -/
theorem reduceNat_lt {y : Nat} (h : y < 2 ^ 178) : reduceNat y < p := by
  have hle : fold (fold y) ≤ p := fold_le_p (fold_le h)
  have hp : 0 < p := by decide
  unfold reduceNat
  split <;> omega

/-- The same of Reduce's 89 bits. -/
theorem reduce_lt {y : Nat} (h : y < 2 ^ 178) : (reduce y).toNat < p :=
  calc (reduce y).toNat ≤ reduceNat y := by
        rw [reduce, BitVec.toNat_ofNat]
        exact Nat.mod_le _ _
    _ < p := reduceNat_lt h

/-- A field register reduced is canonical. -/
theorem reduce_field_lt (v : FieldWord) : (reduce v.toNat).toNat < p :=
  reduce_lt (Nat.lt_trans v.isLt (by decide))

/-- A draw is canonical, whatever RAND_BITS is (R99). -/
theorem State.coef_lt (s : State) (w : RandWord) : (s.coef w).toNat < p := by
  have hr : s.params.randBits ≤ 178 := by
    unfold Params.randBits
    omega
  exact reduce_lt (Nat.lt_of_lt_of_le (Nat.mod_lt _ (Nat.two_pow_pos _)) (Nat.pow_le_pow_right (by decide) hr))

/-- Draws held and words taken now are canonical together. -/
theorem draws_append_lt (s : State) {cs : List FieldWord} (h : ∀ v ∈ cs, v.toNat < p) (ws : List RandWord) :
    ∀ v ∈ cs ++ ws.map s.coef, v.toNat < p := by
  intro v hv
  obtain hv | hv := List.mem_append.mp hv
  · exact h v hv
  · obtain ⟨w, -, rfl⟩ := List.mem_map.mp hv
    exact s.coef_lt w

/-- The last step of Horner's rule reduces. -/
theorem hornerStep_lt (x : Key) (acc ck : FieldWord) : (hornerStep x acc ck).toNat < p :=
  reduce_lt (by omega)

theorem mmodpRaw_lt (a b : FieldWord) (x : Key) : (mmodpRaw a b x).toNat < p :=
  reduce_lt (by have := mul_key_lt a x; omega)

theorem lowBits_lt {v : FieldWord} (h : v.toNat < p) (l : Nat) : (lowBits v l).toNat < p :=
  calc (lowBits v l).toNat ≤ v.toNat % 2 ^ l := by
        rw [lowBits, BitVec.toNat_ofNat]
        exact Nat.mod_le _ _
    _ ≤ v.toNat := Nat.mod_le _ _
    _ < p := h

/-- A 64-bit value in a field register is below p. -/
theorem setWidth_key_lt (x : Key) : (x.setWidth 89).toNat < p := by
  rw [BitVec.toNat_setWidth]
  exact Nat.lt_of_le_of_lt (Nat.mod_le _ _) (Nat.lt_trans x.isLt (by decide))

/-- Both values of an evaluation are canonical, on every slot (42_hash_eval.md R137). -/
theorem hashEval_lt {sl : Slot} {x : Key} {h : HashOut} (e : hashEval sl x = some h) :
    h.out.toNat < p ∧ h.raw.toNat < p := by
  unfold hashEval at e
  split at e <;> cases e
  · exact ⟨setWidth_key_lt _, setWidth_key_lt _⟩
  · exact ⟨lowBits_lt (mmodpRaw_lt _ _ _) _, mmodpRaw_lt _ _ _⟩
  · exact ⟨lowBits_lt (hornerStep_lt _ _ _) _, hornerStep_lt _ _ _⟩

/-! ### Constructed slots (10_state.md R24) -/

/-- The unconstructed slot satisfies R24's table. -/
theorem Slot.empty_wf : Slot.empty.wf = true := by decide

/-- A width that passes the kind's check is in the kind's range. -/
theorem width_of_widthOk {k : Kind} {w : Width} (h : widthOk k w = true) : 1 ≤ w.val ∧ w.val ≤ maxWidth k :=
  of_decide_eq_true h

/-- HCFGMS's coefficient, in its register of 89 bits, is odd and has at most 64 bits (R112). -/
theorem oddCoef_wf (v : FieldWord) :
    ((oddCoef v).setWidth 89).toNat % 2 = 1 ∧ ((oddCoef v).setWidth 89).toNat < 2 ^ 64 := by
  have h0 : (oddCoef v).getLsbD 0 = true := by simp [oddCoef]
  rw [BitVec.toNat_setWidth_of_le (by decide)]
  exact ⟨by simpa [BitVec.getLsbD] using h0, (oddCoef v).isLt⟩

theorem mkSlot_mshift_wf {w : Width} (hw : widthOk .mshift w = true) (v : FieldWord) :
    (mkSlot .mshift w ((oddCoef v).setWidth 89) 0 0 0).wf = true := by
  obtain ⟨hlo, hhi⟩ : 1 ≤ w.val ∧ w.val ≤ 63 := width_of_widthOk hw
  obtain ⟨hodd, hlt⟩ := oddCoef_wf v
  simp [Slot.wf, mkSlot, hlo, hhi, hodd, hlt, -BitVec.toNat_setWidth, -Nat.reducePow]

theorem mkSlot_mmodp_wf {w : Width} (hw : widthOk .mmodp w = true) {c0 c1 : FieldWord} (h0 : c0.toNat < p)
    (h1 : c1.toNat < p) : (mkSlot .mmodp w c0 c1 0 0).wf = true := by
  obtain ⟨hlo, hhi⟩ : 1 ≤ w.val ∧ w.val ≤ 64 := width_of_widthOk hw
  simp [Slot.wf, mkSlot, hlo, hhi, h0, h1]

theorem mkSlot_poly3_wf {w : Width} (hw : widthOk .poly3 w = true) {c0 c1 c2 c3 : FieldWord} (h0 : c0.toNat < p)
    (h1 : c1.toNat < p) (h2 : c2.toNat < p) (h3 : c3.toNat < p) : (mkSlot .poly3 w c0 c1 c2 c3).wf = true := by
  obtain ⟨hlo, hhi⟩ : 1 ≤ w.val ∧ w.val ≤ 64 := width_of_widthOk hw
  simp [Slot.wf, mkSlot, hlo, hhi, h0, h1, h2, h3]

/-! ### Outcomes that write canonical values only -/

/-- Every field register written is below p, and every slot written satisfies R24's table. -/
def CmdOutcome.Canonical : CmdOutcome → Prop
  | .error _ => True
  | .writes f sl _ => (∀ d v, f = some (d, v) → v.toNat < p) ∧ ∀ n x, sl = some (n, x) → x.wf = true

theorem writeF_canonical {v : FieldWord} (h : v.toNat < p) (d : Reg) : (CmdOutcome.writeF d v).Canonical :=
  ⟨fun _ _ e => by cases e; exact h, nofun⟩

theorem writeSlot_canonical {sl : Slot} (h : sl.wf = true) (n : Fin 4) : (CmdOutcome.writeSlot n sl).Canonical :=
  ⟨nofun, fun _ _ e => by cases e; exact h⟩

theorem withSlot_canonical (n : SlotField) {k : Fin 4 → CmdOutcome} (h : ∀ m, (k m).Canonical) :
    (withSlot n k).Canonical := by
  unfold withSlot
  split
  · exact h _
  · trivial

/-- A slot built after both checks is canonical where the width check makes it so. -/
theorem withSlot_withWidth_canonical (n : SlotField) {k : Kind} {w : Width} {sl : Slot}
    (h : widthOk k w = true → sl.wf = true) :
    (withSlot n fun m => withWidth k w (.writeSlot m sl)).Canonical := by
  refine withSlot_canonical n fun m => ?_
  unfold withWidth
  split
  · exact writeSlot_canonical (h ‹_›) m
  · trivial

theorem evalThen_canonical (n : SlotField) (a : Reg) (s : State) {k : HashOut → CmdOutcome}
    (h : ∀ x, x.out.toNat < p → x.raw.toNat < p → (k x).Canonical) : (evalThen n a s k).Canonical := by
  refine withSlot_canonical n fun m => ?_
  split
  · trivial
  · obtain ⟨hout, hraw⟩ := hashEval_lt ‹_›
    exact h _ hout hraw

/-- A member of a list of canonical draws, or the 0 that stands where there is none. -/
theorem draws_getD_lt {cs : List FieldWord} (h : ∀ v ∈ cs, v.toNat < p) (k : Nat) : (cs.getD k 0).toNat < p := by
  rw [List.getD_eq_getElem?_getD]
  cases e : cs[k]? with
  | none => decide
  | some v => exact h v (List.mem_of_getElem? e)

/-- The canonical shape of a command that needs no draw. -/
theorem canonical_of_commit {i : Instr} {s : State} {o : CmdOutcome} (hd : drawsNeeded i = 0)
    (he : exec i s = .next (s.commit o)) (hc : o.Canonical) : ∃ k : List FieldWord → CmdOutcome,
      exec i s = .next (s.drawThen (drawsNeeded i) (encode i) k) ∧
        ∀ cs, (∀ v ∈ cs, v.toNat < p) → (k cs).Canonical :=
  ⟨fun _ => o, by rw [he, hd, State.drawThen_zero], fun _ _ => hc⟩

/-- Every command draws what it needs and commits a canonical outcome of canonical draws. -/
theorem exec_canonical_shape (i : Instr) (s : State) : ∃ k : List FieldWord → CmdOutcome,
    exec i s = .next (s.drawThen (drawsNeeded i) (encode i) k) ∧
      ∀ cs, (∀ v ∈ cs, v.toNat < p) → (k cs).Canonical := by
  cases i with
  | nop => exact canonical_of_commit rfl rfl ⟨nofun, nofun⟩
  | fadd d a b =>
    exact canonical_of_commit rfl rfl (writeF_canonical (reduce_lt (by omega)) d)
  | fmul d a b => exact canonical_of_commit rfl rfl (writeF_canonical (reduce_lt (mul_field_lt _ _)) d)
  | fred d => exact canonical_of_commit rfl rfl (writeF_canonical (reduce_lt (BitVec.isLt _)) d)
  | frand d =>
    refine ⟨_, rfl, fun cs h => writeF_canonical ?_ d⟩
    rw [List.headD_eq_getD]
    exact draws_getD_lt h 0
  | hclr n =>
    exact canonical_of_commit rfl rfl (withSlot_canonical n fun m => writeSlot_canonical Slot.empty_wf m)
  | hcfgms n a w =>
    exact canonical_of_commit rfl rfl (withSlot_withWidth_canonical n fun hw => mkSlot_mshift_wf hw _)
  | hcfgmp n a b w =>
    exact canonical_of_commit rfl rfl (withSlot_withWidth_canonical n fun hw =>
      mkSlot_mmodp_wf hw (reduce_field_lt _) (reduce_field_lt _))
  | hcfgp3 n a w =>
    exact canonical_of_commit rfl rfl (withSlot_withWidth_canonical n fun hw =>
      mkSlot_poly3_wf hw (reduce_field_lt _) (reduce_field_lt _) (reduce_field_lt _) (reduce_field_lt _))
  | hsketch n w =>
    exact ⟨_, rfl, fun cs h => withSlot_withWidth_canonical n fun hw =>
      mkSlot_poly3_wf hw (draws_getD_lt h 0) (draws_getD_lt h 1) (draws_getD_lt h 2) (draws_getD_lt h 3)⟩
  | heval d a n =>
    exact canonical_of_commit rfl rfl (evalThen_canonical n a s fun _ hout _ =>
      ⟨fun _ _ e => by cases e; exact hout, nofun⟩)
  | hgval d a n =>
    exact canonical_of_commit rfl rfl (evalThen_canonical n a s fun _ _ hraw => writeF_canonical hraw d)

/-- What a canonical write leaves: each field register as it was or below p, each slot as it was or in R24's table. -/
def Regs.CanonicalChange (r r' : Regs) : Prop :=
  (∀ d : Reg, r'.f[d] = r.f[d] ∨ r'.f[d].toNat < p) ∧ ∀ n : Fin 4, r'.slots[n] = r.slots[n] ∨ r'.slots[n].wf = true

/-- A write that changes entry d of a vector is a write of entry d. -/
theorem eq_of_getElem_set_ne {α : Type} {n : Nat} {v : Vector α n} {i d : Fin n} {x : α} (h : (v.set i x)[d] ≠ v[d]) :
    i = d := by
  by_contra e
  exact h (by simp [Fin.val_inj, e])

theorem commit_canonicalChange (s : State) {o : CmdOutcome} (h : o.Canonical) :
    s.regs.CanonicalChange (s.commit o).regs := by
  cases o with
  | error c => exact ⟨fun _ => .inl rfl, fun _ => .inl rfl⟩
  | writes f sl sg =>
    obtain ⟨hf, hsl⟩ := h
    refine ⟨fun d => or_iff_not_imp_left.mpr fun hne => ?_, fun n => or_iff_not_imp_left.mpr fun hne => ?_⟩
    · obtain _ | ⟨d', v⟩ := f
      · exact absurd rfl hne
      · obtain rfl := eq_of_getElem_set_ne hne
        simpa [Regs.write] using hf _ _ rfl
    · obtain _ | ⟨n', x⟩ := sl
      · exact absurd rfl hne
      · obtain rfl := eq_of_getElem_set_ne hne
        simpa [Regs.write] using hsl _ _ rfl

end Sys2Proof.Machine
end

section
/-! SUPPORT. What a command and a step can do to the registers, STATUS and the command in flight, said once, and the
clauses of the invariant kept by each (10_state.md R20 to R35, 70_reset_and_hazards.md R174). -/

namespace Sys2Proof.Machine

open Config

/-! ### What a command does to the registers, STATUS and the command in flight -/

/-- A drawing command leaves the registers and STATUS as a commit does: of nothing while it waits, else of the outcome of
its draws, each held before or taken from the port now. -/
theorem drawThen_effect (s : State) (need : Nat) (w : Word32) (k : List FieldWord → CmdOutcome) :
    ∃ o, (o = .writes none none none ∨ ∃ ws : List RandWord, o = k (s.drawsHeld ++ ws.map s.coef)) ∧
      (s.drawThen need w k).regs = (s.commit o).regs ∧ (s.drawThen need w k).status = (s.commit o).status ∧
      (s.drawThen need w k).params = s.params := by
  obtain ⟨-, e⟩ | ⟨ws, rest, cs, -, -, rfl, -, e⟩ := s.drawThen_cases need w k
  · exact ⟨_, .inl rfl, by rw [e]; exact ⟨rfl, rfl, rfl⟩⟩
  · refine ⟨_, .inr ⟨ws, rfl⟩, ?_⟩
    rw [e]
    cases k (s.drawsHeld ++ ws.map s.coef) <;> exact ⟨rfl, rfl, rfl⟩

/-- To write nothing fits every command. -/
theorem noWrites_fits (i : Instr) : OutcomeFits i (.writes none none none) :=
  ⟨nofun, nofun, fun e => absurd rfl e⟩

/-- What exec of i leaves in the registers and STATUS is the commit of an outcome that fits i. -/
theorem exec_effect {i : Instr} {s t : State} (h : exec i s = .next t) :
    ∃ o, OutcomeFits i o ∧ t.regs = (s.commit o).regs ∧ t.status = (s.commit o).status ∧ t.params = s.params := by
  obtain ⟨k, e, hk⟩ := exec_shape i s
  obtain rfl := Host.Outcome.next.inj (e.symm.trans h)
  obtain ⟨o, rfl | ⟨ws, rfl⟩, ht⟩ := drawThen_effect s (drawsNeeded i) (encode i) k
  · exact ⟨_, noWrites_fits i, ht⟩
  · exact ⟨_, hk _, ht⟩

/-- With canonical draws held, exec makes a canonical change of the registers. -/
theorem exec_canonicalChange {i : Instr} {s t : State} (h : exec i s = .next t) (hd : ∀ v ∈ s.drawsHeld, v.toNat < p) :
    s.regs.CanonicalChange t.regs := by
  obtain ⟨k, e, hk⟩ := exec_canonical_shape i s
  obtain rfl := Host.Outcome.next.inj (e.symm.trans h)
  obtain ⟨o, ho, hr, -⟩ := drawThen_effect s (drawsNeeded i) (encode i) k
  rw [hr]
  refine commit_canonicalChange s ?_
  obtain rfl | ⟨ws, rfl⟩ := ho
  · exact ⟨nofun, nofun⟩
  · exact hk _ (draws_append_lt s hd ws)

/-- After a drawing command none is in flight, or the same one is, with the draws it took. -/
theorem drawThen_inFlight (s : State) (need : Nat) (w : Word32) (k : List FieldWord → CmdOutcome) :
    (s.drawThen need w k).inFlight = none ∨ s.drawThen need w k = s.takeDraws need w := by
  dsimp only [State.drawThen]
  split
  · exact .inr rfl
  · exact .inl (State.commit_inFlight _ _)

/-! ### What a step does to the registers and STATUS -/

/-- The next step is a reset: rst, or a CTRL write with bit 0 (10_state.md R28, R35). -/
def State.ResetNext (s : State) : Prop :=
  (∃ (o : Option BusReq) (rest : List Input), s.env = .rst o :: rest) ∨
    ∃ (v : Word32) (rest : List Input), s.env = .bus (.write 0x00C v) :: rest ∧ v.getLsbD 0 = true

/-- The cases of a step by what it does to the registers and STATUS: the registers stay, with STATUS as it was, an error
recorded or an error cleared; a command commits an outcome that fits it; a reset; or a host write to an idle block. -/
inductive StepEffect (s t : State) : Prop where
  | regsStay (hr : t.regs = s.regs)
      (hs : t.status = s.status ∨ (∃ c, c ≠ .none ∧ t.status = s.status.record c) ∨
        ∃ (v : Word32) (rest : List Input), s.env = .bus (.write 0x00C v) :: rest ∧ v.getLsbD 1 = true ∧
          t.status = s.status.clear)
  | command {fl : InFlight} {i : Instr} {o : CmdOutcome} (hn : s.engineNext = true) (hf : s.inFlight = some fl)
      (hd : decode fl.cmd = .ok i) (ho : OutcomeFits i o)
      (hr : t.regs = (s.commit o).regs) (hs : t.status = (s.commit o).status)
      (hc : (∀ v ∈ fl.draws, v.toNat < p) → s.regs.CanonicalChange t.regs)
  | reset (hn : s.ResetNext) (hr : t.regs = Regs.reset) (hs : t.status = Status.reset)
  | hostWide {k : Fin 6} {d : Word32} {rest : List Input} (hf : s.inFlight = none)
      (he : s.env = .bus (.write (wideAddr k) d) :: rest)
      (hr : t.regs = { s.regs with wide := setWord s.regs.wide k.val d }) (hs : t.status = s.status)
  | hostField {i : Fin 16} {k : Fin 3} {d : Word32} {rest : List Input} (hf : s.inFlight = none)
      (he : s.env = .bus (.write (fieldAddr i k) d) :: rest)
      (hr : t.regs = { s.regs with f := s.regs.f.set i (setWord s.regs.f[i] k.val d) }) (hs : t.status = s.status)

/-- A CTRL write, answered without error. -/
theorem busAccess_write_ctrl (s : State) (v : Word32) :
    s.busAccess (.write 0x00C v) = (s.writeCtrl v).respond { rdata := 0, err := false } := rfl

/-- A CTRL write with neither bit does nothing (R28). -/
theorem writeCtrl_of_clear {v : Word32} (h0 : v.getLsbD 0 = false) (h1 : v.getLsbD 1 = false) (s : State) :
    s.writeCtrl v = s := by
  simp only [State.writeCtrl, h0, h1, Bool.false_eq_true, if_false]

/-- The effect of a bus access. -/
theorem bus_effect {s : State} {r : BusReq} {rest : List Input} (he : s.env = .bus r :: rest) :
    StepEffect s (State.busAccess { s with env := rest } r) := by
  obtain ⟨x, e | ⟨w, -, -, e⟩ | ⟨c, hc, -, e⟩ | ⟨v, rfl, h0, e⟩ | ⟨v, rfl, h0, e⟩ |
    ⟨hf, ⟨k, d, rfl, e⟩ | ⟨i, k, d, rfl, e⟩⟩⟩ := busAccess_cases { s with env := rest } r
  · rw [e]
    exact .regsStay rfl (.inl rfl)
  · rw [e]
    exact .regsStay rfl (.inl rfl)
  · rw [e]
    exact .regsStay rfl (.inr (.inl ⟨c, by rcases hc with rfl | rfl <;> exact nofun, rfl⟩))
  · rw [e]
    exact .reset (.inr ⟨v, rest, he, h0⟩) rfl rfl
  · cases h1 : v.getLsbD 1 with
    | true =>
      rw [e]
      exact .regsStay rfl (.inr (.inr ⟨v, rest, he, h1, rfl⟩))
    | false =>
      rw [busAccess_write_ctrl, writeCtrl_of_clear h0 h1]
      exact .regsStay rfl (.inl rfl)
  · rw [e]
    exact .hostWide hf he rfl rfl
  · rw [e]
    exact .hostField hf he rfl rfl

/-- Every step has one of the effects. -/
theorem step_effect {s t : State} (h : step s = .next t) : StepEffect s t := by
  obtain ⟨r, rest, he, rfl⟩ | ⟨w, rest, -, rfl⟩ | ⟨o, rest, he, rfl⟩ |
    ⟨hn, ⟨-, rfl⟩ | ⟨fl, hf, rfl | ⟨i, hd, hx⟩ | ⟨e, -, rfl⟩⟩⟩ := step_cases h
  · exact bus_effect he
  · exact .regsStay rfl (.inl rfl)
  · exact .reset (.inl ⟨o, rest, he⟩) rfl rfl
  · exact .regsStay rfl (.inl rfl)
  · exact .regsStay rfl (.inl rfl)
  · obtain ⟨o, ho, hr, hs, -⟩ := exec_effect hx
    have e : ((s.counted fl).commit o).regs = (s.commit o).regs ∧
        ((s.counted fl).commit o).status = (s.commit o).status := by cases o <;> exact ⟨rfl, rfl⟩
    exact .command hn hf hd ho (hr.trans e.1) (hs.trans e.2) (exec_canonicalChange hx)
  · exact .regsStay rfl (.inr (.inl ⟨.illegalCmd, nofun, rfl⟩))

/-- No step writes the parameters (log entry 1). -/
theorem step_params {s t : State} (h : step s = .next t) : t.params = s.params := by
  obtain ⟨r, rest, -, rfl⟩ | ⟨w, rest, -, rfl⟩ | ⟨o, rest, -, rfl⟩ |
    ⟨-, ⟨-, rfl⟩ | ⟨fl, -, rfl | ⟨i, -, hx⟩ | ⟨e, -, rfl⟩⟩⟩ := step_cases h
  · cases r with
    | read a => rfl
    | write a d => exact State.writeTarget_params _ _ _
  · rfl
  · rfl
  · rfl
  · rfl
  · obtain ⟨o, -, -, -, hp⟩ := exec_effect hx
    exact hp
  · rfl

/-! ### The command in flight -/

/-- The two clauses of the invariant on the command in flight. -/
def State.FlightWf (s : State) : Prop :=
  ∀ fl, s.inFlight = some fl →
    fl.snapshot = s.regs ∧ fl.draws.length ≤ wordDraws fl.cmd ∧ ∀ v ∈ fl.draws, v.toNat < p

/-- The invariant, with its clauses on the command in flight together. -/
theorem inv_iff (s : State) :
    s.Inv ↔ (∀ n : Fin 4, s.regs.slots[n].wf = true) ∧ s.status.wf = true ∧ s.FlightWf := by
  constructor
  · intro h
    exact ⟨h.slots, h.status, fun fl e => ⟨h.snapshot fl e, h.draws fl e⟩⟩
  · rintro ⟨hsl, hst, hf⟩
    exact ⟨hsl, hst, fun fl e => (hf fl e).1, fun fl e => (hf fl e).2⟩

theorem flightWf_of_none {s : State} (h : s.inFlight = none) : s.FlightWf :=
  fun fl e => by rw [h] at e; cases e

/-- Taking no more draws than the word needs. -/
theorem takeDraws_flightWf {s : State} {fl : InFlight} (hf : s.inFlight = some fl) (h : s.FlightWf) {n : Nat}
    (hn : n ≤ wordDraws fl.cmd) (w : Word32) : (s.takeDraws n w).FlightWf := by
  obtain ⟨hsnap, hlen, hlt⟩ := h fl hf
  intro fl' e
  obtain rfl : { fl with draws := fl.draws ++ (s.rnd.take (n - fl.draws.length)).map s.coef } = fl' := by
    simpa [State.takeDraws, State.flightOr, State.drawsHeld, hf] using e
  refine ⟨hsnap, ?_, draws_append_lt s hlt _⟩
  simp only [List.length_append, List.length_map, List.length_take]
  omega

theorem counted_flightWf {s : State} {fl : InFlight} (hf : s.inFlight = some fl) (h : s.FlightWf) :
    (s.counted fl).FlightWf := by
  intro fl' e
  obtain rfl := Option.some.inj e
  exact h fl hf

/-- A command that runs leaves nothing in flight, or itself with no more draws than it needs. -/
theorem exec_flightWf {s t : State} {fl : InFlight} {i : Instr} (hf : s.inFlight = some fl)
    (hd : decode fl.cmd = .ok i) (h : s.FlightWf) (hx : exec i s = .next t) : t.FlightWf := by
  obtain ⟨k, e, -⟩ := exec_shape i s
  obtain rfl := Host.Outcome.next.inj (e.symm.trans hx)
  obtain hn | ht := drawThen_inFlight s (drawsNeeded i) (encode i) k
  · exact flightWf_of_none hn
  · have hw : drawsNeeded i = wordDraws fl.cmd := by simp only [wordDraws, hd]
    rw [ht]
    exact takeDraws_flightWf hf h hw.le _

/-- A bus access leaves the command in flight and its operands, accepts one, or aborts it (R62, R174). -/
theorem busAccess_flightWf {s : State} (h : s.FlightWf) (r : BusReq) : (s.busAccess r).FlightWf := by
  obtain ⟨x, e | ⟨w, -, -, e⟩ | ⟨c, -, -, e⟩ | ⟨v, -, -, e⟩ | ⟨v, -, -, e⟩ |
    ⟨hf, ⟨k, d, -, e⟩ | ⟨i, k, d, -, e⟩⟩⟩ := busAccess_cases s r <;> rw [e]
  · exact h
  · intro fl ef
    obtain rfl := Option.some.inj ef
    exact ⟨rfl, Nat.zero_le _, nofun⟩
  · exact h
  · exact flightWf_of_none rfl
  · exact h
  · exact flightWf_of_none hf
  · exact flightWf_of_none hf

theorem step_flightWf {s t : State} (h : s.FlightWf) (hx : step s = .next t) : t.FlightWf := by
  obtain ⟨r, rest, -, rfl⟩ | ⟨w, rest, -, rfl⟩ | ⟨o, rest, -, rfl⟩ |
    ⟨-, ⟨-, rfl⟩ | ⟨fl, hf, rfl | ⟨i, hd, hx⟩ | ⟨e, -, rfl⟩⟩⟩ := step_cases hx
  · exact busAccess_flightWf (s := { s with env := rest }) h r
  · exact h
  · exact flightWf_of_none rfl
  · exact h
  · exact takeDraws_flightWf (s := s.counted fl) rfl (counted_flightWf hf h) (Nat.min_le_left _ _) _
  · exact exec_flightWf (s := s.counted fl) rfl hd (counted_flightWf hf h) hx
  · exact flightWf_of_none rfl

/-! ### STATUS (R27) -/

theorem Status.wf_iff (st : Status) : st.wf = true ↔ (st.err = true ↔ st.errcode ≠ .none) := by
  rw [Status.wf, beq_iff_eq, Bool.eq_iff_iff, bne_iff_ne]

theorem Status.record_of_noErr {st : Status} (h : st.err = false) (c : ErrCode) :
    st.record c = { st with err := true, errcode := c } := by
  simp only [Status.record, h, Bool.false_eq_true, if_false]

theorem Status.record_of_err {st : Status} (h : st.err = true) (c : ErrCode) : st.record c = st := by
  simp only [Status.record, h, if_true]

@[simp] theorem Status.record_err (st : Status) (c : ErrCode) : (st.record c).err = true := by
  cases h : st.err with
  | false => rw [Status.record_of_noErr h]
  | true => rw [Status.record_of_err h, h]

@[simp] theorem Status.record_sign (st : Status) (c : ErrCode) : (st.record c).sign = st.sign := by
  cases h : st.err with
  | false => rw [Status.record_of_noErr h]
  | true => rw [Status.record_of_err h]

@[simp] theorem Status.write_err (st : Status) (b : Option Bool) : (st.write b).err = st.err := by
  cases b <;> rfl

@[simp] theorem Status.write_errcode (st : Status) (b : Option Bool) : (st.write b).errcode = st.errcode := by
  cases b <;> rfl

/-- Recording a real error keeps ERR and ERRCODE coherent. -/
theorem Status.record_wf {st : Status} (h : st.wf = true) {c : ErrCode} (hc : c ≠ .none) : (st.record c).wf = true := by
  cases he : st.err with
  | false => simp [Status.record_of_noErr he, Status.wf_iff, hc]
  | true => rwa [Status.record_of_err he]

theorem commit_status_wf {s : State} (h : s.status.wf = true) {i : Instr} {o : CmdOutcome} (ho : OutcomeFits i o) :
    (s.commit o).status.wf = true := by
  cases o with
  | error c => exact Status.record_wf h ho.1
  | writes f sl sg => simpa [Status.wf] using h

theorem step_status_wf {s t : State} (h : s.status.wf = true) (hx : step s = .next t) : t.status.wf = true := by
  cases step_effect hx with
  | regsStay _ hs =>
    obtain hs | ⟨c, hc, hs⟩ | ⟨v, rest, -, -, hs⟩ := hs <;> rw [hs]
    · exact h
    · exact Status.record_wf h hc
    · rfl
  | command _ _ _ ho _ hs _ => rw [hs]; exact commit_status_wf h ho
  | reset _ _ hs => rw [hs]; rfl
  | hostWide _ _ _ hs => rwa [hs]
  | hostField _ _ _ hs => rwa [hs]

/-- With ERR = 1 a commit keeps ERR and ERRCODE. -/
theorem commit_status_of_err {s : State} (h : s.status.err = true) (o : CmdOutcome) :
    (s.commit o).status.err = true ∧ (s.commit o).status.errcode = s.status.errcode := by
  cases o with
  | error c =>
    rw [State.commit_error, Status.record_of_err h]
    exact ⟨h, rfl⟩
  | writes f sl sg => exact ⟨by simpa using h, by simp⟩

/-- A commit that leaves ERR = 0 records nothing. -/
theorem noErr_of_commit {s : State} {o : CmdOutcome} (h : (s.commit o).status.err = false) :
    s.status.err = false ∧ (s.commit o).status.errcode = s.status.errcode := by
  cases o with
  | error c => simp at h
  | writes f sl sg => exact ⟨by simpa using h, by simp⟩

/-- From ERR = 1, a step keeps ERR and ERRCODE, or is a reset, or a CTRL write with bit 1. -/
theorem step_of_err {s t : State} (hx : step s = .next t) (h : s.status.err = true) :
    (t.status.err = true ∧ t.status.errcode = s.status.errcode) ∨ s.ResetNext ∨
      ∃ (v : Word32) (rest : List Input), s.env = .bus (.write 0x00C v) :: rest ∧ v.getLsbD 1 = true := by
  cases step_effect hx with
  | regsStay _ hs =>
    obtain hs | ⟨c, -, hs⟩ | ⟨v, rest, he, h1, -⟩ := hs
    · exact .inl (by rw [hs]; exact ⟨h, rfl⟩)
    · exact .inl (by rw [hs, Status.record_of_err h]; exact ⟨h, rfl⟩)
    · exact .inr (.inr ⟨v, rest, he, h1⟩)
  | command _ _ _ _ _ hs _ => exact .inl (by rw [hs]; exact commit_status_of_err h _)
  | reset hn _ _ => exact .inr (.inl hn)
  | hostWide _ _ _ hs => exact .inl (by rw [hs]; exact ⟨h, rfl⟩)
  | hostField _ _ _ hs => exact .inl (by rw [hs]; exact ⟨h, rfl⟩)

/-- A step to ERR = 0 clears ERRCODE, or came from ERR = 0 and keeps it. -/
theorem step_to_noErr {s t : State} (hx : step s = .next t) (h : t.status.err = false) :
    t.status.errcode = .none ∨ s.status.err = false ∧ t.status.errcode = s.status.errcode := by
  cases step_effect hx with
  | regsStay _ hs =>
    obtain hs | ⟨c, -, hs⟩ | ⟨v, rest, -, -, hs⟩ := hs <;> rw [hs] at h ⊢
    · exact .inr ⟨h, rfl⟩
    · simp at h
    · exact .inl rfl
  | command _ _ _ _ _ hs _ =>
    rw [hs] at h ⊢
    exact .inr (noErr_of_commit h)
  | reset _ _ hs => exact .inl (by rw [hs]; rfl)
  | hostWide _ _ _ hs =>
    rw [hs] at h ⊢
    exact .inr ⟨h, rfl⟩
  | hostField _ _ _ hs =>
    rw [hs] at h ⊢
    exact .inr ⟨h, rfl⟩

/-! ### Slots (R24) -/

theorem Regs.reset_slots (n : Fin 4) : Regs.reset.slots[n] = Slot.empty := by simp [Regs.reset]

theorem step_slots_wf {s t : State} (h : s.Inv) (hx : step s = .next t) (n : Fin 4) : t.regs.slots[n].wf = true := by
  cases step_effect hx with
  | regsStay hr _ => rw [hr]; exact h.slots n
  | command _ hf _ _ _ _ hc =>
    obtain ⟨-, hsl⟩ := hc (h.draws _ hf).2
    obtain e | hw := hsl n
    · rw [e]; exact h.slots n
    · exact hw
  | reset _ hr _ => rw [hr, Regs.reset_slots]; exact Slot.empty_wf
  | hostWide _ _ hr _ => rw [hr]; exact h.slots n
  | hostField _ _ hr _ => rw [hr]; exact h.slots n

end Sys2Proof.Machine
end

section
/-! SUPPORT. Which command changes which register, what a bus read then sees, reset and single inputs (10_state.md R20,
R28 to R35; 20_memory.md R54). -/

namespace Sys2Proof.Machine

open Config

/-! ### The registers -/

/-- No commit changes WIDE. -/
theorem commit_wide (s : State) (o : CmdOutcome) : (s.commit o).regs.wide = s.regs.wide := by
  cases o <;> rfl

/-- A command that changes F[d] has F[d] as its destination. -/
theorem destOf_of_commit {s : State} {i : Instr} {o : CmdOutcome} (ho : OutcomeFits i o) {d : Reg}
    (h : (s.commit o).regs.f[d] ≠ s.regs.f[d]) : destOf i = some d := by
  cases o with
  | error c => exact absurd rfl h
  | writes f sl sg =>
    obtain ⟨hf, -, -⟩ := ho
    obtain _ | ⟨d', v⟩ := f
    · exact absurd rfl h
    · obtain rfl := eq_of_getElem_set_ne h
      exact hf _ _ rfl

/-- A command that changes slot n has slot n as its destination. -/
theorem slotDestOf_of_commit {s : State} {i : Instr} {o : CmdOutcome} (ho : OutcomeFits i o) {n : Fin 4}
    (h : (s.commit o).regs.slots[n] ≠ s.regs.slots[n]) : ∃ m, slotDestOf i = some m ∧ m.val = n.val := by
  cases o with
  | error c => exact absurd rfl h
  | writes f sl sg =>
    obtain ⟨-, hsl, -⟩ := ho
    obtain _ | ⟨n', x⟩ := sl
    · exact absurd rfl h
    · obtain rfl := eq_of_getElem_set_ne h
      exact hsl _ _ rfl

/-- The commands with a field register as their destination. -/
theorem destOf_cases {i : Instr} {d : Reg} (h : destOf i = some d) :
    (∃ a b : Reg, i = .fadd d a b ∨ i = .fmul d a b) ∨ i = .fred d ∨ i = .frand d ∨
      ∃ (a : Reg) (n : SlotField), i = .heval d a n ∨ i = .hgval d a n := by
  cases i <;> cases h
  case fadd a b => exact .inl ⟨a, b, .inl rfl⟩
  case fmul a b => exact .inl ⟨a, b, .inr rfl⟩
  case fred => exact .inr (.inl rfl)
  case frand => exact .inr (.inr (.inl rfl))
  case heval a n => exact .inr (.inr (.inr ⟨a, n, .inl rfl⟩))
  case hgval a n => exact .inr (.inr (.inr ⟨a, n, .inr rfl⟩))

/-- The commands with a slot as their destination. -/
theorem opcode_of_slotDestOf {i : Instr} {m : SlotField} (h : slotDestOf i = some m) :
    i.opcode ∈ [Opcode.hclr, .hcfgms, .hcfgmp, .hcfgp3, .hsketch] := by
  cases i <;> cases h <;> simp [Instr.opcode]

theorem Regs.reset_f (d : Reg) : Regs.reset.f[d] = 0 := by simp [Regs.reset]

/-! ### The frame of a command over bus reads -/

/-- An address other than STATUS reads as before where what it names, and the parameters, are as before. -/
theorem busRead_congr {s t : State} {a : Addr} (ha : a ≠ 0x008) (hp : t.params = s.params)
    (hw : t.regs.wide = s.regs.wide)
    (hf : ∀ (i : Fin 16) (k : Fin 3), target a = .f i k → t.regs.f[i] = s.regs.f[i])
    (hs : ∀ n : Fin 4, (target a = .scfg n ∨ ∃ k j, target a = .coef n k j) → t.regs.slots[n] = s.regs.slots[n]) :
    t.busRead a = s.busRead a := by
  suffices h : t.readTarget (target a) = s.readTarget (target a) by rw [State.busRead, State.busRead, h]
  cases ht : target a with
  | status => exact absurd (target_eq_status ht) ha
  | param => simp only [State.readTarget, hp]
  | wide k => simp only [State.readTarget, hw]
  | f i k => simp only [State.readTarget, hf i k ht]
  | scfg n => simp only [State.readTarget, hs n (.inl ht)]
  | coef n k j => simp only [State.readTarget, hs n (.inr ⟨k, j, ht⟩)]
  | id => rfl
  | cmd => rfl
  | ctrl => rfl
  | reserved => rfl
  | busError => rfl

/-- After exec of i, an address other than STATUS, i's register and i's slot reads as before. -/
theorem exec_busRead {i : Instr} {s t : State} (hx : exec i s = .next t) {a : Addr} (ha : a ≠ 0x008)
    (hf : ∀ (d : Reg) (k : Fin 3), destOf i = some d → a ≠ fieldAddr d k)
    (hs : ∀ n : SlotField, slotDestOf i = some n →
      ¬(0x200 + 0x80 * n.val ≤ a.toNat ∧ a.toNat < 0x200 + 0x80 * (n.val + 1))) :
    t.busRead a = s.busRead a := by
  obtain ⟨o, ho, hr, -, hp⟩ := exec_effect hx
  refine busRead_congr ha hp (by rw [hr, commit_wide]) (fun d k ht => ?_) fun n ht => ?_
  · rw [hr]
    by_contra h
    exact hf d k (destOf_of_commit ho h) (target_eq_f ht)
  · rw [hr]
    by_contra h
    obtain ⟨m, hm, hv⟩ := slotDestOf_of_commit ho h
    exact hs m hm (by rw [hv]; exact target_slot_window ht)

/-! ### ID, PARAM and reset -/

/-- PARAM as a number (R31). -/
theorem paramWord_toNat (c : Params) : (paramWord c).toNat = 0x59000410 + c.randBits * 2 ^ 16 := by
  have h : c.randBits < 2 ^ 8 := by
    unfold Params.randBits
    omega
  simp only [paramWord, Laws.toNat_append_add, BitVec.toNat_ofNat, Nat.mod_eq_of_lt h, q, NSLOT, NFR]
  omega

/-- A read of PARAM depends on the parameters only. -/
theorem busRead_param (s : State) : s.busRead 0x010 = { rdata := paramWord s.params, err := false } := rfl

/-- A state whose registers, STATUS and command in flight are the reset's has every value of R35's table. -/
theorem atResetValues_of_reset {t : State} (hr : t.regs = Regs.reset) (hs : t.status = Status.reset)
    (hf : t.inFlight = none) : t.AtResetValues := by
  have hslot : ∀ n : Fin 4, t.regs.slots[n] = Slot.empty := fun n => by rw [hr, Regs.reset_slots]
  refine ⟨fun d => by rw [hr, Regs.reset_f], by rw [hr]; rfl, fun n => ?_, ?_, by rw [hs]; rfl, by rw [hs]; rfl,
    by rw [hs]; rfl, hf, ?_, ?_, rfl, paramWord_toNat t.params⟩
  · rw [hslot n]
    exact ⟨rfl, rfl, fun k => by simp [Slot.empty]⟩
  · simp only [State.busy, hf, Option.isSome_none]
  · simp only [State.drawsHeld, hf]
  · simp only [State.rndReady, hf]

/-! ### The step of one input, and the placed word -/

/-- The step that services a bus access. -/
theorem step_bus {s : State} {r : BusReq} {rest : List Input} (he : s.env = .bus r :: rest) :
    step s = .next (State.busAccess { s with env := rest } r) := by
  simp only [step, he, State.handle]

/-- The step at an edge with rst = 1. -/
theorem step_rst {s : State} {o : Option BusReq} {rest : List Input} (he : s.env = .rst o :: rest) :
    step s = .next (State.resetBlock { s with env := rest }) := by
  simp only [step, he, State.handle, State.hardReset]

/-- A CMD write, answered without error. -/
theorem busAccess_write_cmd (s : State) (w : Word32) :
    s.busAccess (.write 0x004 w) = (s.writeCmd w).respond { rdata := 0, err := false } := rfl

/-- A 32-bit word is placed whole. -/
theorem withFetchWord_eq (s : State) (w : Nat) : s.withFetchWord 32 w = s.placeCommand (BitVec.ofNat 32 w) := by
  have h : BitVec.ofNat 32 (w % 2 ^ 32) = BitVec.ofNat 32 w := BitVec.eq_of_toNat_eq (by simp)
  rw [State.withFetchWord, h]

end Sys2Proof.Machine
end

section
/-! The statements on the state of 10_state.md, settled. -/

namespace Sys2Proof.Machine

open Config

/-- Settles O52: slots and STATUS by what a step can do to them, the command in flight by its own invariant. -/
theorem stepKeepsInvariant : Obligations.StepKeepsInvariant := by
  intro s t hi hx
  obtain ⟨-, hst, hfl⟩ := (inv_iff s).mp hi
  exact (inv_iff t).mpr ⟨step_slots_wf hi hx, step_status_wf hst hx, step_flightWf hfl hx⟩

/-- Settles O31: what a step from ERR = 1 and a step to ERR = 0 can be. -/
theorem firstErrorStaysUntilCleared : Obligations.FirstErrorStaysUntilCleared := by
  refine ⟨fun s c => ⟨fun h => ?_, fun h => ?_⟩, fun s t hx h => ?_, ⟨rfl, rfl⟩, fun s t hc hx h => ?_⟩
  · rw [State.recordError, Status.record_of_noErr h]
  · rw [State.recordError, Status.record_of_err h]
  · obtain hk | (hr | ⟨v, rest, he, h0⟩) | ⟨v, rest, he, h1⟩ := step_of_err hx h
    · exact .inl hk
    · exact .inr (.inl hr)
    · exact .inr (.inr ⟨v, rest, he, .inl h0⟩)
    · exact .inr (.inr ⟨v, rest, he, .inr h1⟩)
  · obtain e | ⟨h0, e⟩ := step_to_noErr hx h
    · exact e
    · rw [e]
      exact hc h0

/-- Settles O35: the start, rst and SRST give the registers, STATUS and command in flight of the reset. -/
theorem resetLeavesEveryTableValue : Obligations.ResetLeavesEveryTableValue := by
  refine ⟨atResetValues_of_reset rfl rfl rfl, fun s t o rest he hx => ?_, fun s t v rest he h0 hx => ?_⟩
  · rw [step_rst he] at hx
    obtain rfl := Host.Outcome.next.inj hx
    exact atResetValues_of_reset rfl rfl rfl
  · rw [step_bus he, busAccess_write_ctrl, State.writeCtrl, if_pos h0] at hx
    obtain rfl := Host.Outcome.next.inj hx
    exact atResetValues_of_reset rfl rfl rfl

/-- Settles O41: the parts of the word, each at the weight of its lowest bit. -/
theorem statusReadsAsItsFields : Obligations.StatusReadsAsItsFields := by
  intro s
  have hb : s.busy.toNat = if s.inFlight = none then 0 else 1 := by
    cases hf : s.inFlight <;> simp [State.busy, hf]
  have hw : (s.busRead 0x008).rdata = s.statusWord := rfl
  refine ⟨rfl, ?_⟩
  rw [hw]
  simp only [State.statusWord, Laws.toNat_append_add, BitVec.toNat_ofBool, hb]
  cases s.status.errcode <;> cases s.status.sign <;> cases s.status.err <;> split <;> rfl

/-- Settles O42: ID is a constant, and PARAM reads the parameters, which no step writes. -/
theorem idAndParamAreConstant : Obligations.IdAndParamAreConstant := by
  refine ⟨fun s => ⟨rfl, rfl, paramWord_toNat s.params⟩, fun s t hx => ⟨rfl, ?_⟩⟩
  rw [busRead_param, busRead_param, step_params hx]

/-- Settles O53: of the effects of a step, the four that can change F[d]; and what each but the host's leaves there. -/
theorem onlyHostWritesNoncanonical : Obligations.OnlyHostWritesNoncanonical := by
  constructor
  · intro s t d hx hne
    cases step_effect hx with
    | regsStay hr _ => exact absurd (by rw [hr]) hne
    | command hn hf hd ho hr _ _ =>
      exact .inl ⟨hn, _, _, hf, hd, destOf_cases (destOf_of_commit ho (by rwa [← hr]))⟩
    | reset hn _ _ => exact .inr (.inr hn)
    | hostWide _ _ hr _ => exact absurd (by rw [hr]) hne
    | hostField hf he hr _ =>
      rw [hr] at hne
      obtain rfl := eq_of_getElem_set_ne hne
      exact .inr (.inl ⟨_, _, _, he, hf⟩)
  · intro s t d hi hx hne
    cases step_effect hx with
    | regsStay hr _ => exact absurd (by rw [hr]) hne
    | command _ hf _ _ _ _ hc =>
      obtain ⟨hreg, -⟩ := hc (hi.draws _ hf).2
      exact .inl ((hreg d).resolve_left hne)
    | reset _ hr _ => exact .inl (by rw [hr, Regs.reset_f]; decide)
    | hostWide _ _ hr _ => exact absurd (by rw [hr]) hne
    | hostField hf he hr _ =>
      rw [hr] at hne
      obtain rfl := eq_of_getElem_set_ne hne
      exact .inr ⟨_, _, _, he, hf⟩

/-- Settles O54: of the outcomes that fit a command, only HEVAL's write SIGN. -/
theorem onlyHevalOrResetWritesSign : Obligations.OnlyHevalOrResetWritesSign := by
  intro s t hx hne
  cases step_effect hx with
  | regsStay _ hs =>
    obtain hs | ⟨c, -, hs⟩ | ⟨v, rest, -, -, hs⟩ := hs
    · exact absurd (by rw [hs]) hne
    · exact absurd (by simp [hs]) hne
    · exact absurd (by rw [hs]; rfl) hne
  | @command fl i o hn hf hd ho _ hs _ =>
    cases o with
    | error c => exact absurd (by simp [hs]) hne
    | writes f sl sg =>
      obtain ⟨-, -, hsg⟩ := ho
      have hi : i.opcode = .heval := hsg fun e => hne (by rw [hs, e]; rfl)
      cases i with
      | heval d a n => exact .inl ⟨hn, fl, d, a, n, hf, hd⟩
      | _ => cases hi
  | reset hn _ _ => exact .inr hn
  | hostWide _ _ _ hs => exact absurd (by rw [hs]) hne
  | hostField _ _ _ hs => exact absurd (by rw [hs]) hne

/-- Settles O55: a command that changes the slots changes one of them, and it is a construction command's own. -/
theorem onlyConstructionOrResetWritesSlots : Obligations.OnlyConstructionOrResetWritesSlots := by
  intro s t hx hne
  cases step_effect hx with
  | regsStay hr _ => exact absurd (by rw [hr]) hne
  | command hn hf hd ho hr _ _ =>
    obtain ⟨n, hn4, h⟩ : ∃ n, ∃ _ : n < 4, t.regs.slots[n] ≠ s.regs.slots[n] := by
      by_contra hall
      exact hne (Vector.ext fun n hn4 => by_contra fun e => hall ⟨n, hn4, e⟩)
    rw [hr] at h
    obtain ⟨m, hm, -⟩ := slotDestOf_of_commit (n := ⟨n, hn4⟩) ho h
    exact .inl ⟨hn, _, _, hf, hd, opcode_of_slotDestOf hm⟩
  | reset hn _ _ => exact .inr hn
  | hostWide _ _ hr _ => exact absurd (by rw [hr]) hne
  | hostField _ _ hr _ => exact absurd (by rw [hr]) hne

/-- Settles O56: no command commits a change of WIDE. -/
theorem onlyHostOrResetWritesWide : Obligations.OnlyHostOrResetWritesWide := by
  intro s t hx hne
  cases step_effect hx with
  | regsStay hr _ => exact absurd (by rw [hr]) hne
  | command _ _ _ _ hr _ _ => exact absurd (by rw [hr, commit_wide]) hne
  | reset hn _ _ => exact .inr hn
  | hostWide hf he _ _ => exact .inl ⟨_, _, _, he, hf⟩
  | hostField _ _ hr _ => exact absurd (by rw [hr]) hne

/-- Settles O59: the commands named have no slot as their destination, and no register but F[d], NOP none. -/
theorem fieldCommandsFrameOnTheBus : Obligations.FieldCommandsFrameOnTheBus := by
  intro i d s t hi hx a ha hout
  obtain ⟨hslot, hdest⟩ : slotDestOf i = none ∧ ∀ d', destOf i = some d' → d = d' ∧ i ≠ .nop := by
    rcases hi with rfl | ⟨_, _, rfl | rfl⟩ | rfl | rfl | ⟨_, _, rfl | rfl⟩ <;> simp [slotDestOf, destOf]
  refine exec_busRead hx ha (fun d' k e => ?_) fun n e => ?_
  · obtain ⟨rfl, hnop⟩ := hdest d' e
    exact hout.resolve_left hnop k
  · rw [hslot] at e
    cases e

/-- Settles O60: the commands named have no register as their destination, and slot n as their slot. -/
theorem slotCommandsFrameOnTheBus : Obligations.SlotCommandsFrameOnTheBus := by
  intro i n s t hi hx a ha hout
  obtain ⟨hdest, hslot⟩ : destOf i = none ∧ slotDestOf i = some n := by
    rcases hi with rfl | ⟨_, _, rfl | rfl⟩ | ⟨_, _, _, rfl⟩ | ⟨_, rfl⟩ <;> exact ⟨rfl, rfl⟩
  refine exec_busRead hx ha (fun d k e => ?_) fun m e => ?_
  · rw [hdest] at e
    cases e
  · obtain rfl := Option.some.inj (hslot.symm.trans e)
    exact hout

/-- Settles O6: the placed word is in flight one cycle short of its latency, and that cycle comes next. -/
theorem placedWordRunsNext : Obligations.PlacedWordRunsNext := by
  intro s w i hd
  have hlat : s.params.latency (opcOf (BitVec.ofNat 32 w)) - 1 + 1 = s.params.latency (opcOf (BitVec.ofNat 32 w)) :=
    Nat.sub_add_cancel (Nat.le_add_left _ _)
  have hdraws : wordDraws (BitVec.ofNat 32 w) = drawsNeeded i := by simp only [wordDraws, hd]
  rw [withFetchWord_eq, step_of_inFlight rfl rfl]
  simp only [State.placeCommand, State.newFlight, hlat, Nat.lt_irrefl, if_false, State.runLatched, hd, State.counted,
    List.length_nil, hdraws, List.tail_cons]
  split <;> rfl

/-- Settles O9: the two branches of a CMD write, idle and busy. -/
theorem cmdWriteAcceptsOrOverruns : Obligations.CmdWriteAcceptsOrOverruns := by
  refine ⟨fun s => rfl, fun s w rest he => ?_⟩
  rw [step_bus he, busAccess_write_cmd]
  refine ⟨fun hf => ?_, fun hf => ?_⟩
  · have hb : ¬State.busy { s with env := rest } = true := by simp [State.busy, hf]
    rw [State.writeCmd, if_neg hb]
    rfl
  · have hb : State.busy { s with env := rest } = true := Option.isSome_iff_ne_none.mpr hf
    rw [State.writeCmd, if_pos hb]
    rfl

/-- Settles O33: the three branches of a CTRL write, none of which asks whether the block is busy. -/
theorem ctrlWriteResetsOrClears : Obligations.CtrlWriteResetsOrClears := by
  refine ⟨fun s => rfl, fun s v rest he => ?_⟩
  rw [step_bus he, busAccess_write_ctrl]
  refine ⟨fun h0 => ?_, fun h0 h1 => ?_, fun h0 h1 => ?_⟩
  · rw [State.writeCtrl, if_pos h0]
    rfl
  · rw [State.writeCtrl, h0, if_neg Bool.false_ne_true, if_pos h1]
    rfl
  · rw [writeCtrl_of_clear h0 h1]
    rfl

/-- Settles O51: the reset's slots are unconstructed, and nothing is in flight. -/
theorem invariantAtReset : Obligations.InvariantAtReset :=
  (inv_iff _).mpr ⟨fun n => (congrArg Slot.wf (Regs.reset_slots n)).trans Slot.empty_wf, rfl, flightWf_of_none rfl⟩

end Sys2Proof.Machine
end

section
/-! SUPPORT. The register map read forwards: what each address of 20_memory.md R54 names, and each range of addresses. -/

namespace Sys2Proof.Machine

/-! ### The address of each register -/

@[simp] theorem target_wideAddr (k : Fin 6) : target (wideAddr k) = .wide k := by
  decide +revert

@[simp] theorem target_fieldAddr (i : Reg) (k : Fin 3) : target (fieldAddr i k) = .f i k := by
  decide +revert

/-- SCFG[n] stands first in its slot's window. -/
theorem target_scfgAddr (n : Fin 4) : target (BitVec.ofNat 12 (0x200 + 0x80 * n.val)) = .scfg n := by
  decide +revert

/-- The coefficients of a slot follow, 0x10 apart. -/
theorem target_coefAddr (n k : Fin 4) (j : Fin 3) :
    target (BitVec.ofNat 12 (0x200 + 0x80 * n.val + 0x10 * (k.val + 1) + 4 * j.val)) = .coef n k j := by
  decide +revert

/-! ### What a range of aligned addresses names -/

section Ranges

variable {a : Addr} (h4 : a.toNat % 4 = 0)
include h4

/-- A reserved address names no register (R57). -/
theorem target_of_reserved (hlt : a.toNat < 0x400) (h : ReservedAddr a.toNat) : target a = .reserved := by
  unfold ReservedAddr at h
  simp only [target, targetLow, targetField, targetSlot]
  -- Each branch of the map answers `.reserved`, or its tests exclude these addresses.
  repeat' split
  all_goals first | rfl | omega

/-- The words of WIDE fill their range. -/
theorem target_of_wideRange (h : 0x020 ≤ a.toNat ∧ a.toNat < 0x038) : ∃ k, target a = .wide k := by
  have hok : ¬(a.toNat % 4 ≠ 0 ∨ 0x400 ≤ a.toNat) := by omega
  exact ⟨_, by rw [target, if_neg hok, if_neg (by omega), if_pos h.2]⟩

/-- The words of F fill theirs, but for the fourth of each group. -/
theorem target_of_fieldRange (h : 0x100 ≤ a.toNat ∧ a.toNat < 0x200 ∧ a.toNat % 0x10 ≠ 0xC) :
    ∃ i k, target a = .f i k := by
  obtain ⟨hlo, hhi, hk⟩ := h
  have hok : ¬(a.toNat % 4 ≠ 0 ∨ 0x400 ≤ a.toNat) := by omega
  have hword : a.toNat % 0x10 / 4 < 3 := by omega
  exact ⟨_, ⟨_, hword⟩, by
    rw [target, if_neg hok, if_neg (by omega), if_neg (by omega), if_neg (by omega), if_pos hhi, targetField,
      dif_pos hword]⟩

/-- Every other address from 0x200 up is a slot's. -/
theorem target_of_slotRange (hlt : a.toNat < 0x400) (h : 0x200 ≤ a.toNat ∧ ¬ReservedAddr a.toNat) :
    (∃ n, target a = .scfg n) ∨ ∃ n k j, target a = .coef n k j := by
  obtain ⟨hlo, hres⟩ := h
  unfold ReservedAddr at hres
  have hok : ¬(a.toNat % 4 ≠ 0 ∨ 0x400 ≤ a.toNat) := by omega
  have ht : target a = targetSlot a.toNat := by
    rw [target, if_neg hok, if_neg (by omega), if_neg (by omega), if_neg (by omega), if_neg (by omega)]
  by_cases h0 : a.toNat % 0x80 = 0
  · exact .inl ⟨_, by rw [ht, targetSlot, if_pos h0]⟩
  · have hin : 0x10 ≤ a.toNat % 0x80 ∧ a.toNat % 0x80 < 0x50 ∧ a.toNat % 0x80 % 0x10 / 4 < 3 := by omega
    exact .inr ⟨_, _, ⟨_, hin.2.2⟩, by rw [ht, targetSlot, if_neg h0, dif_pos hin]⟩

end Ranges

end Sys2Proof.Machine
end

section
/-! SUPPORT. A wide value and its words: a value written word by word, and put together from its words (20_memory.md R55,
30_encoding.md R79). -/

namespace Sys2Proof.Machine

/-- Word k as a number. -/
theorem wordOf_toNat {n : Nat} (v : BitVec n) (k : Nat) : (wordOf v k).toNat = v.toNat / 2 ^ (32 * k) % 2 ^ 32 := by
  rw [wordOf, BitVec.extractLsb'_toNat, Nat.shiftRight_eq_div_pow]

/-- The words `ks` of v written over those of x, one by one. -/
def copyWords {n : Nat} (v : BitVec n) (ks : List Nat) (x : BitVec n) : BitVec n :=
  ks.foldl (fun x k => setWord x k (wordOf v k)) x

theorem copyWords_cons {n : Nat} (v : BitVec n) (k : Nat) (ks : List Nat) (x : BitVec n) :
    copyWords v (k :: ks) x = copyWords v ks (setWord x k (wordOf v k)) := rfl

/-- A bit comes from v where the word it lies in was written. -/
theorem getLsbD_copyWords {n : Nat} (v : BitVec n) (ks : List Nat) (x : BitVec n) {i : Nat} (hi : i < n) :
    (copyWords v ks x).getLsbD i = if i / 32 ∈ ks then v.getLsbD i else x.getLsbD i := by
  induction ks generalizing x with
  | nil => simp [copyWords]
  | cons k ks ih =>
    have hword : (setWord x k (wordOf v k)).getLsbD i = if i / 32 = k then v.getLsbD i else x.getLsbD i := by
      rw [getLsbD_setWord _ _ _ _ hi, getLsbD_wordOf]
      by_cases hk : i / 32 = k
      · rw [if_pos hk, if_pos (by omega), show 32 * k + (i - 32 * k) = i by omega]
        simp [show i - 32 * k < 32 by omega]
      · rw [if_neg hk, if_neg (by omega)]
    rw [copyWords_cons, ih, hword]
    by_cases hm : i / 32 ∈ ks <;> simp [hm]

/-- Written in all its words, a value is the one written. -/
theorem copyWords_range {n m : Nat} (v : BitVec n) (h : n ≤ 32 * m) (x : BitVec n) :
    copyWords v (List.range m) x = v := by
  apply BitVec.eq_of_getLsbD_eq
  intro i hi
  rw [getLsbD_copyWords v _ x hi, if_pos (List.mem_range.mpr (by omega))]

/-- A field register is put together from its three words. -/
theorem fieldOfWords_wordOf (v : FieldWord) : fieldOfWords (wordOf v 0) (wordOf v 1) (wordOf v 2) = v := by
  apply BitVec.eq_of_toNat_eq
  simp only [fieldOfWords, Laws.toNat_append_add, BitVec.toNat_setWidth, wordOf_toNat]
  omega

/-- A word written reads back whole, or masked where it is the last and the value ends inside it. -/
theorem wordOf_setWord_of_mask {n k : Nat} {c : Prop} [Decidable c] {m : Word32}
    (h : (BitVec.allOnes n).extractLsb' (32 * k) 32 = if c then m else BitVec.allOnes 32) (v : BitVec n) (d : Word32) :
    wordOf (setWord v k d) k = if c then d &&& m else d := by
  rw [wordOf_setWord, h]
  split
  · rfl
  · exact BitVec.and_allOnes

/-- Bits 31:25 of word 2 lie beyond a field register (R56). -/
theorem wordOf_setWord_field (v : FieldWord) (k : Fin 3) (d : Word32) :
    wordOf (setWord v k.val d) k.val = if k = 2 then d &&& 0x01FFFFFF#32 else d :=
  wordOf_setWord_of_mask (by decide +revert) v d

/-- Bits 31:18 of word 5 lie beyond WIDE (R23, R56). -/
theorem wordOf_setWord_wide (v : WideWord) (k : Fin 6) (d : Word32) :
    wordOf (setWord v k.val d) k.val = if k = 5 then d &&& 0x0003FFFF#32 else d :=
  wordOf_setWord_of_mask (by decide +revert) v d

/-- SCFG as a number (R54). -/
theorem Slot.scfg_toNat (sl : Slot) : sl.scfg.toNat = sl.kind.code.toNat + 0x100 * sl.width.toNat := by
  simp only [Slot.scfg, Laws.toNat_append_add, BitVec.toNat_ofNat]
  omega

end Sys2Proof.Machine
end

section
/-! SUPPORT. One bus access by the kind of register it names: dropped by a busy block, ignored, or the write of one word
(20_memory.md R54 to R62); and the responses and offered words that a step leaves (R66, R67). -/

namespace Sys2Proof.Machine

/-! ### What an access does, by what its address names -/

theorem State.writeRegs_of_idle {s : State} (hf : s.inFlight = none) (r : Regs) :
    s.writeRegs r = { s with regs := r } := by
  simp [State.writeRegs, State.busy, hf]

theorem State.writeRegs_of_busy {s : State} (hf : s.inFlight ≠ none) (r : Regs) :
    s.writeRegs r = s.recordError .busyWrite :=
  if_pos (Option.isSome_iff_ne_none.mpr hf)

/-- A read of an address, by what it names. -/
theorem busAccess_read_of_target {a : Addr} {t : Target} (ht : target a = t) (s : State) :
    s.busAccess (.read a) = s.respond { rdata := s.readTarget t, err := t == .busError } := by
  subst ht
  rfl

/-- A write of an address, by what it names. -/
theorem busAccess_write_of_target {a : Addr} {t : Target} (ht : target a = t) (s : State) (d : Word32) :
    s.busAccess (.write a d) = (s.writeTarget t d).respond { rdata := 0, err := t == .busError } := by
  subst ht
  rfl

theorem busAccesses_cons (s : State) (r : BusReq) (rs : List BusReq) :
    busAccesses s (r :: rs) = busAccesses (s.busAccess r) rs := rfl

/-! ### The writes of an idle block -/

section Idle

variable {s : State} (hf : s.inFlight = none)
include hf

theorem busAccess_write_field (i : Reg) (k : Fin 3) (d : Word32) :
    s.busAccess (.write (fieldAddr i k) d) =
      { s with
        regs := { s.regs with f := s.regs.f.set i (setWord s.regs.f[i] k d) }
        responses := { rdata := 0, err := false } :: s.responses } := by
  rw [busAccess_write_of_target (target_fieldAddr i k), State.writeTarget, State.writeRegs_of_idle hf]
  rfl

theorem busAccess_write_wide (k : Fin 6) (d : Word32) :
    s.busAccess (.write (wideAddr k) d) =
      { s with
        regs := { s.regs with wide := setWord s.regs.wide k d }
        responses := { rdata := 0, err := false } :: s.responses } := by
  rw [busAccess_write_of_target (target_wideAddr k), State.writeTarget, State.writeRegs_of_idle hf]
  rfl

/-- Words `ks` of v written to F[i]. -/
theorem busAccesses_write_field (i : Reg) (v : FieldWord) (ks : List (Fin 3)) :
    busAccesses s (ks.map fun k : Fin 3 => .write (fieldAddr i k) (wordOf v k)) =
      { s with
        regs := { s.regs with f := s.regs.f.set i (copyWords v (ks.map Fin.val) s.regs.f[i]) }
        responses := List.replicate ks.length { rdata := 0, err := false } ++ s.responses } := by
  induction ks generalizing s with
  | nil => simp [busAccesses, copyWords]
  | cons k ks ih =>
    rw [List.map_cons, busAccesses_cons, busAccess_write_field hf, ih]
    · simp [copyWords_cons, List.replicate_succ']
    · exact hf

/-- Words `ks` of v written to WIDE. -/
theorem busAccesses_write_wide (v : WideWord) (ks : List (Fin 6)) :
    busAccesses s (ks.map fun k : Fin 6 => .write (wideAddr k) (wordOf v k)) =
      { s with
        regs := { s.regs with wide := copyWords v (ks.map Fin.val) s.regs.wide }
        responses := List.replicate ks.length { rdata := 0, err := false } ++ s.responses } := by
  induction ks generalizing s with
  | nil => rfl
  | cons k ks ih =>
    rw [List.map_cons, busAccesses_cons, busAccess_write_wide hf, ih]
    · simp [copyWords_cons, List.replicate_succ']
    · exact hf

end Idle

/-! ### What a read sees -/

/-- F[i] word k reads without error. -/
theorem busRead_field (s : State) (i : Reg) (k : Fin 3) :
    s.busRead (fieldAddr i k) = { rdata := wordOf s.regs.f[i] k, err := false } := by
  rw [State.busRead, target_fieldAddr]
  rfl

/-- WIDE word k reads without error. -/
theorem busRead_wide (s : State) (k : Fin 6) :
    s.busRead (wideAddr k) = { rdata := wordOf s.regs.wide k, err := false } := by
  rw [State.busRead, target_wideAddr]
  rfl

/-! ### Responses and offered words -/

/-- The step at which the random source offers a word. -/
theorem step_offer {s : State} {w : RandWord} {rest : List Input} (he : s.env = .offer w :: rest) :
    step s = .next { s with env := rest, rnd := s.rnd ++ [w] } := by
  simp only [step, he, State.handle, State.offerWord]

/-- A bus access adds one response. -/
theorem busAccess_responses (s : State) (r : BusReq) : ∃ x : BusResp, (s.busAccess r).responses = x :: s.responses := by
  cases r with
  | read a => exact ⟨_, rfl⟩
  | write a d => exact ⟨_, by rw [State.busAccess, State.respond_responses, State.writeTarget_responses]⟩

@[simp] theorem busAccess_rnd (s : State) (r : BusReq) : (s.busAccess r).rnd = s.rnd := by
  cases r with
  | read a => rfl
  | write a d => rw [State.busAccess, State.respond_rnd, State.writeTarget_rnd]

@[simp] theorem State.drawThen_responses (s : State) (need : Nat) (w : Word32) (k : List FieldWord → CmdOutcome) :
    (s.drawThen need w k).responses = s.responses := by
  dsimp only [State.drawThen]
  split
  · rfl
  · exact State.commit_responses _ _

/-- A drawing command leaves the words behind those it still needed. -/
@[simp] theorem State.drawThen_rnd (s : State) (need : Nat) (w : Word32) (k : List FieldWord → CmdOutcome) :
    (s.drawThen need w k).rnd = s.rnd.drop (need - s.drawsHeld.length) := by
  dsimp only [State.drawThen]
  split
  · rw [State.takeDraws_rnd, State.flightOr_draws]
  · rw [State.commit_rnd, State.takeDraws_rnd, State.flightOr_draws]

/-- No command answers on the bus. -/
theorem exec_responses {i : Instr} {s t : State} (hx : exec i s = .next t) : t.responses = s.responses := by
  obtain ⟨k, e, -⟩ := exec_shape i s
  obtain rfl := Host.Outcome.next.inj (e.symm.trans hx)
  exact State.drawThen_responses _ _ _ _

/-- A command takes from the front of the port what it still needs. -/
theorem exec_rnd {i : Instr} {s t : State} (hx : exec i s = .next t) :
    t.rnd = s.rnd.drop (drawsNeeded i - s.drawsHeld.length) := by
  obtain ⟨k, e, -⟩ := exec_shape i s
  obtain rfl := Host.Outcome.next.inj (e.symm.trans hx)
  exact State.drawThen_rnd _ _ _ _

/-- The words that the engine's cycle takes: none, or the first n on offer, where the command needs n more (R66, R116). -/
theorem taken_of_drop {s t : State} {fl : InFlight} (hf : s.inFlight = some fl) {need : Nat}
    (hn : need ≤ wordDraws fl.cmd) (h : t.rnd = s.rnd.drop (need - fl.draws.length)) :
    t.rnd = s.rnd ∨ s.rndReady = true ∧ ∃ taken : List RandWord, s.rnd = taken ++ t.rnd ∧
      ∃ fl : InFlight, s.inFlight = some fl ∧ fl.draws.length + taken.length ≤ wordDraws fl.cmd := by
  by_cases hd : fl.draws.length < need
  · have hready : s.rndReady = true := by simp only [State.rndReady, hf, decide_eq_true_eq]; omega
    refine .inr ⟨hready, _, by rw [h, List.take_append_drop], fl, hf, ?_⟩
    rw [List.length_take]
    omega
  · left
    rw [h, Nat.sub_eq_zero_of_le (Nat.not_lt.mp hd), List.drop_zero]

end Sys2Proof.Machine
end

section
/-! The statements on the register bus and the random port of 20_memory.md, settled. -/

namespace Sys2Proof.Machine

/-- Settles O37: each address of the map, evaluated; those with an index by their own lemmas. -/
theorem registerMapAddresses : Obligations.RegisterMapAddresses :=
  ⟨rfl, rfl, rfl, rfl, rfl, target_wideAddr, target_fieldAddr, target_scfgAddr, target_coefAddr⟩

/-- Settles O38: such an address names the bus error, whose reads and writes leave the state. -/
theorem busErrorHasNoEffect : Obligations.BusErrorHasNoEffect := by
  intro s a d h
  have ht : target a = .busError := target_eq_busError.mpr h
  exact ⟨busAccess_read_of_target ht s, busAccess_write_of_target ht s d⟩

/-- Settles O48: the step of a read is its response. -/
theorem readChangesNothing : Obligations.ReadChangesNothing := by
  intro s a rest he
  rw [step_bus he]
  rfl

/-- Settles O39: each of these addresses names a register whose write is ignored. -/
theorem readOnlyWritesIgnored : Obligations.ReadOnlyWritesIgnored := by
  intro s a d h4 hlt h
  obtain rfl | rfl | rfl | hslot := h
  · exact busAccess_write_of_target rfl s d
  · exact busAccess_write_of_target rfl s d
  · exact busAccess_write_of_target rfl s d
  · obtain ⟨n, ht⟩ | ⟨n, k, j, ht⟩ := target_of_slotRange h4 hlt hslot
    · exact busAccess_write_of_target ht s d
    · exact busAccess_write_of_target ht s d

/-- Settles O40: CMD, CTRL and the reserved addresses by what they name. -/
theorem reservedAndWriteOnlyReadZero : Obligations.ReservedAndWriteOnlyReadZero := by
  intro s a h4 hlt
  constructor
  · rintro (rfl | rfl | hr)
    · exact busAccess_read_of_target rfl s
    · exact busAccess_read_of_target rfl s
    · exact busAccess_read_of_target (target_of_reserved h4 hlt hr) s
  · intro hr d
    exact busAccess_write_of_target (target_of_reserved h4 hlt hr) s d

/-- Settles O43: the words as numbers. -/
theorem slotReadsBack : Obligations.SlotReadsBack := by
  intro s n
  refine ⟨?_, fun k j => ?_⟩
  · rw [State.busRead, target_scfgAddr]
    simp only [State.readTarget, Slot.scfg_toNat]
    cases s.regs.slots[n].kind <;> rfl
  · rw [State.busRead, target_coefAddr]
    exact wordOf_toNat _ _

/-- Settles O44: the word written by what a register keeps of it; the register's other words are not written. -/
theorem fieldWordWriteReadsBack : Obligations.FieldWordWriteReadsBack := by
  intro s i k d hf
  rw [busAccess_write_field hf]
  refine ⟨?_, fun a ha => ?_⟩
  · simp only [busRead_field, Fin.getElem_fin, Vector.getElem_set_self, wordOf_setWord_field]
  · suffices h : ∀ j m, target a = .f j m →
        wordOf (s.regs.f.set i (setWord s.regs.f[i] k d))[j] m = wordOf s.regs.f[j] m by
      simp only [State.busRead]
      cases ht : target a with
      | f j m => simp only [State.readTarget, h j m ht]
      | _ => rfl
    intro j m ht
    by_cases hj : i = j
    · subst hj
      have hm : m.val ≠ k.val := fun e => ha (by rw [target_eq_f ht, e])
      simp only [Fin.getElem_fin, Vector.getElem_set_self, wordOf_setWord_ne _ _ hm]
    · simp only [Fin.getElem_fin, Vector.getElem_set_ne _ _ (Fin.val_ne_of_ne hj)]

/-- Settles O45: the same of WIDE. -/
theorem wideWordWriteReadsBack : Obligations.WideWordWriteReadsBack := by
  intro s k d hf
  rw [busAccess_write_wide hf]
  refine ⟨?_, fun a ha => ?_⟩
  · rw [busRead_wide, wordOf_setWord_wide]
  · simp only [State.busRead]
    cases ht : target a with
    | wide m =>
      have hm : m.val ≠ k.val := fun e => ha (by rw [target_eq_wide ht, e])
      simp only [State.readTarget, wordOf_setWord_ne _ _ hm]
    | _ => rfl

/-- Settles O46: the words written are all the words of the register. -/
theorem hostWritesWholeRegisters : Obligations.HostWritesWholeRegisters := by
  intro s hf
  refine ⟨fun i v => ?_, fun v => ?_⟩
  · have h := busAccesses_write_field hf i v (List.finRange 3)
    rwa [List.map_coe_finRange_eq_range, copyWords_range v (by decide)] at h
  · have h := busAccesses_write_wide hf v (List.finRange 6)
    rwa [List.map_coe_finRange_eq_range, copyWords_range v (by decide)] at h

/-- Settles O47: what the three words read as, put together. -/
theorem hostReadsWholeRegister : Obligations.HostReadsWholeRegister := by
  intro s i
  have h (k : Fin 3) : (s.busRead (fieldAddr i k)).rdata = wordOf s.regs.f[i] k := by rw [busRead_field]
  exact (congr (congrArg₂ fieldOfWords (h 0) (h 1)) (h 2)).trans (fieldOfWords_wordOf _)

/-- Settles O49: the address names a word of WIDE or F, and a busy block drops the write of either. -/
theorem busyRegisterWriteIsDropped : Obligations.BusyRegisterWriteIsDropped := by
  intro s a d rest he hf h4 h
  have hb : State.inFlight { s with env := rest } ≠ none := hf
  rw [step_bus he]
  obtain hw | hr := h
  · obtain ⟨k, ht⟩ := target_of_wideRange h4 hw
    rw [busAccess_write_of_target ht, State.writeTarget, State.writeRegs_of_busy hb]
    rfl
  · obtain ⟨i, k, ht⟩ := target_of_fieldRange h4 hr
    rw [busAccess_write_of_target ht, State.writeTarget, State.writeRegs_of_busy hb]
    rfl

/-- Settles O50: of what a step can do, only a bus access responds. -/
theorem oneResponsePerAccess : Obligations.OneResponsePerAccess := by
  intro s t hx
  constructor
  · rintro ⟨r, rest, he⟩
    obtain rfl := Host.Outcome.next.inj ((step_bus he).symm.trans hx)
    exact busAccess_responses _ r
  · intro hno
    obtain ⟨r, rest, he, -⟩ | ⟨w, rest, -, rfl⟩ | ⟨o, rest, -, rfl⟩ |
      ⟨-, ⟨-, rfl⟩ | ⟨fl, -, rfl | ⟨i, -, hi⟩ | ⟨e, -, rfl⟩⟩⟩ := step_cases hx
    · exact absurd ⟨r, rest, he⟩ hno
    · rfl
    · rfl
    · rfl
    · rfl
    · exact exec_responses (s := s.counted fl) hi
    · rfl

/-- Settles O57: of what a step can do, only an offer adds a word, and only the engine's cycle takes any. -/
theorem wordsAreTakenOnlyWhenReady : Obligations.WordsAreTakenOnlyWhenReady := by
  refine ⟨fun s w rest he => step_offer he, fun s t hx => ?_⟩
  obtain ⟨r, rest, -, rfl⟩ | ⟨w, rest, he, -⟩ | ⟨o, rest, -, rfl⟩ |
    ⟨hn, ⟨-, rfl⟩ | ⟨fl, hf, rfl | ⟨i, hd, hi⟩ | ⟨e, -, rfl⟩⟩⟩ := step_cases hx
  · exact .inl (busAccess_rnd _ r)
  · exact .inr (.inl ⟨w, rest, he⟩)
  · exact .inl rfl
  · exact .inl rfl
  · exact (taken_of_drop hf (Nat.min_le_left _ _) (State.takeDraws_rnd _ _ _)).imp_right fun h => .inr ⟨hn, h⟩
  · have hw : drawsNeeded i = wordDraws fl.cmd := by simp only [wordDraws, hd]
    exact (taken_of_drop hf hw.le (exec_rnd hi)).imp_right fun h => .inr ⟨hn, h⟩
  · exact .inl rfl

/-- Settles O58: with a command in flight, a bus access answers, records or clears an error, or is SRST. -/
theorem acceptedCommandIsOutOfReach : Obligations.AcceptedCommandIsOutOfReach := by
  intro s t r rest he hf hr hx
  obtain rfl := Host.Outcome.next.inj ((step_bus he).symm.trans hx)
  obtain ⟨x, e | ⟨w, -, hidle, -⟩ | ⟨c, -, -, e⟩ | ⟨v, hv, h0, -⟩ | ⟨v, -, -, e⟩ | ⟨hidle, -⟩⟩ :=
    busAccess_cases { s with env := rest } r
  · rw [e]
    exact ⟨rfl, rfl⟩
  · exact absurd hidle hf
  · rw [e]
    exact ⟨rfl, rfl⟩
  · exact absurd h0 (by rw [hr v hv]; exact Bool.false_ne_true)
  · rw [e]
    exact ⟨rfl, rfl⟩
  · exact absurd hidle hf

end Sys2Proof.Machine
end

section
/-! SUPPORT. The decoder and the opcode map (30_encoding.md R74 to R77): a word decodes by the one row it matches, and is
legal where that row's command is well formed. -/

namespace Sys2Proof.Laws

open Sys2Proof

/-- A word that matches a row carries the row's OPC. -/
theorem opcOf_of_match {w : Word32} {o : Opcode} (h : w &&& o.mask = o.pattern) : opcOf w = o.code :=
  calc opcOf w = opcOf (w &&& o.mask) := by rw [opcOf_and, (mask_covers o).1, BitVec.and_allOnes]
    _ = o.code := by rw [h, pattern_eq, opcOf_packWord]

/-- No word matches two rows: the rows' opcodes differ. -/
theorem opcode_eq_of_match {w : Word32} {o o' : Opcode} (h : w &&& o.mask = o.pattern)
    (h' : w &&& o'.mask = o'.pattern) : o = o' := by
  have hcode : o.code = o'.code := (opcOf_of_match h).symm.trans (opcOf_of_match h')
  exact Option.some.inj (by rw [← ofCode?_code o, hcode, ofCode?_code o'])

/-- A word decodes to a command exactly when it matches the row that builds the command, and the command is well formed. -/
theorem decode_eq_ok_iff {w : Word32} {i : Instr} :
    decode w = .ok i ↔ ∃ o : Opcode, w &&& o.mask = o.pattern ∧ o.build w = i ∧ i.wf = true := by
  constructor
  · intro hd
    by_cases hm : ∃ o : Opcode, w &&& o.mask = o.pattern
    · obtain ⟨o, ho⟩ := hm
      rw [decode_of_match ho] at hd
      split at hd
      · cases hd
        exact ⟨o, ho, rfl, ‹_›⟩
      · cases hd
    · exact absurd hd (decode_of_no_match (not_exists.mp hm) i)
  · rintro ⟨o, ho, rfl, hwf⟩
    rw [decode_of_match ho, if_pos hwf]

/-- A row's command that has a SLOT operand has the word's SLOT. -/
theorem build_slot? {o : Opcode} {w : Word32} (h : (o.build w).slot?.isSome = true) :
    (o.build w).slot? = some (slotOf w).toFin := by
  cases o with
  | nop | fadd | fmul | fred | frand => cases h
  | hclr | hcfgms | hcfgmp | hcfgp3 | hsketch | heval | hgval => rfl

/-- A row's command is well formed exactly when the word's SLOT is below 4, if the row uses SLOT (R76 case 4). -/
theorem build_wf_iff {o : Opcode} {w : Word32} :
    (o.build w).wf = true ↔ ((o.build w).slot?.isSome = true → (slotOf w).toNat < 4) := by
  unfold Instr.wf
  cases hs : (o.build w).slot? with
  | none => exact ⟨fun _ => nofun, fun _ => rfl⟩
  | some n =>
    obtain rfl : (slotOf w).toFin = n := Option.some.inj ((build_slot? (by rw [hs]; rfl)).symm.trans hs)
    exact ⟨fun h _ => of_decide_eq_true h, fun h => decide_eq_true (h rfl)⟩

end Sys2Proof.Laws
end

section
/-! SUPPORT. A command whose SLOT operand names no slot (30_encoding.md R76 case 4). -/

namespace Sys2Proof.Machine

/-- The slot check on a SLOT of 4 or more ends the command with ILLEGAL_CMD, whatever the command would do. -/
theorem commit_withSlot_of_ge (s : State) {n : SlotField} (h : 4 ≤ n.val) (k : Fin 4 → CmdOutcome) :
    s.commit (withSlot n k) = s.completedError .illegalCmd := by
  rw [withSlot_of_ge h, State.commit_error_eq, State.completedError]

/-- HSKETCH on a SLOT of 4 or more fails its check and draws nothing (R116). -/
theorem drawsNeeded_hsketch_of_ge {n : SlotField} (h : 4 ≤ n.val) (w : Width) : drawsNeeded (.hsketch n w) = 0 := by
  have hn : slotLegal n = false := decide_eq_false (Nat.not_lt.mpr h)
  rw [drawsNeeded, hn, Bool.false_and, if_neg Bool.false_ne_true]

end Sys2Proof.Machine
end

section
/-! The statements on the encoding of 30_encoding.md, settled. -/

namespace Sys2Proof.Machine

/-- Settles O2: the command's word matches the row of its opcode, and the row builds the command back. -/
theorem decodeOfEncode : Obligations.DecodeOfEncode := by
  intro i hwf
  exact Laws.decode_eq_ok_iff.mpr ⟨i.opcode, Laws.mask_encode i, Laws.build_encode i, hwf⟩

/-- Settles O3: the word matches the row that builds the command, so its fields outside the operands are the row's own. -/
theorem encodeOfDecode : Obligations.EncodeOfDecode := by
  intro w i hd
  obtain ⟨o, ho, rfl, hwf⟩ := Laws.decode_eq_ok_iff.mp hd
  exact ⟨Laws.encode_build o w ho, hwf⟩

/-- Settles O4: what decodes is a row's well-formed command, and a row's OPC is its own. -/
theorem legalWordsAreTheMapsRows : Obligations.LegalWordsAreTheMapsRows := by
  refine ⟨fun w => ⟨?_, ?_⟩, fun w o o' => Laws.opcode_eq_of_match⟩
  · rintro ⟨i, hd⟩
    obtain ⟨o, ho, rfl, hwf⟩ := Laws.decode_eq_ok_iff.mp hd
    exact ⟨o, ho, Laws.build_wf_iff.mp hwf⟩
  · rintro ⟨o, ho, hslot⟩
    exact ⟨o.build w, Laws.decode_eq_ok_iff.mpr ⟨o, ho, rfl, Laws.build_wf_iff.mpr hslot⟩⟩

/-- Settles O27: every command with a SLOT operand checks it first, and HSKETCH draws nothing where the check fails. -/
theorem missingSlotRecordsOnlyIllegalCmd : Obligations.MissingSlotRecordsOnlyIllegalCmd := by
  intro s i n hi hn
  cases i with
  | nop | fadd | fmul | fred | frand => cases hi
  | hsketch m w =>
    cases hi
    rw [exec, execHsketch, drawsNeeded_hsketch_of_ge hn, State.drawThen_zero, commit_withSlot_of_ge s hn]
  | hclr | hcfgms | hcfgmp | hcfgp3 | heval | hgval =>
    cases hi
    exact congrArg Host.Outcome.next (commit_withSlot_of_ge s hn _)

/-- Settles O1, by running the decoder on each word. -/
theorem sampleWordsDecode : Obligations.SampleWordsDecode := by
  unfold Obligations.SampleWordsDecode
  decide

end Sys2Proof.Machine
end

section
/-! SUPPORT. One row of the opcode map as a decoder (30_encoding.md R74, R76): what its words decode to, and that no other
word with its OPC is legal. -/

namespace Sys2Proof.Laws

open Sys2Proof Sys2Proof.Machine

/-- Every word with a row's OPC that does not match the row is illegal: no other row has its OPC. -/
theorem decode_error_of_opcOf {w : Word32} {o : Opcode} (hopc : opcOf w = o.code) (hm : w &&& o.mask ≠ o.pattern) :
    ∃ e, decode w = .error e := by
  cases hd : decode w with
  | error e => exact ⟨e, rfl⟩
  | ok i =>
    obtain ⟨o', ho', -, -⟩ := decode_eq_ok_iff.mp hd
    have hcode : o.code = o'.code := hopc.symm.trans (opcOf_of_match ho')
    obtain rfl : o = o' := Option.some.inj (by rw [← ofCode?_code o, hcode, ofCode?_code o'])
    exact absurd ho' hm

/-- Each row decodes as it builds, SLOT checked where the row uses it. -/
theorem rowDecodes (o : Opcode) {usesSlot : Bool} (hu : ∀ w, (o.build w).slot?.isSome = usesSlot) :
    RowDecodes o.mask o.pattern usesSlot o.build := by
  intro w
  refine ⟨fun hm => ⟨fun hslot => ?_, fun ⟨hused, hge⟩ => ?_⟩, fun hopc hm => ?_⟩
  · have hwf : (o.build w).wf = true := build_wf_iff.mpr fun hs =>
      hslot.resolve_left (by rw [← hu w, hs]; exact nofun)
    rw [decode_of_match hm, if_pos hwf]
  · have hwf : ¬(o.build w).wf = true := fun h =>
      absurd (build_wf_iff.mp h ((hu w).trans hused)) (Nat.not_lt.mpr hge)
    rw [decode_of_match hm, if_neg hwf]
  · rw [pattern_eq, opcOf_packWord] at hopc
    exact decode_error_of_opcOf hopc hm

end Sys2Proof.Laws
end

section
/-! SUPPORT. Fold and Reduce mod p (40_field_arith.md R90 to R92), with the primality of p, and what the commit of a reduced
value or of a draw leaves (R99, R165). -/

namespace Sys2Proof.Machine

open Config

/-! ### Fold and Reduce -/

/-- Fold keeps the residue, because 2^89 leaves 1. -/
theorem fold_mod_p (y : Nat) : fold y % p = y % p := by
  rw [fold_eq]
  simp only [p]
  omega

/-- Fold takes no value but 0 to 0. -/
theorem fold_pos {y : Nat} (h : 0 < y) : 0 < fold y := by
  rw [fold_eq]
  omega

/-- Reduce, as a natural, is the residue mod p. -/
theorem reduceNat_eq_mod {y : Nat} (h : y < 2 ^ 178) : reduceNat y = y % p := by
  have hmod : fold (fold y) % p = y % p := (fold_mod_p _).trans (fold_mod_p y)
  have hred : reduceNat y % p = fold (fold y) % p := by
    unfold reduceNat
    split
    · exact (Nat.mod_eq_sub_mod ‹_›).symm
    · rfl
  rw [← Nat.mod_eq_of_lt (reduceNat_lt h), hred, hmod]

/-- Reduce is the residue mod p, as 89 bits. -/
theorem reduce_eq_ofNat {y : Nat} (h : y < 2 ^ 178) : reduce y = BitVec.ofNat 89 (y % p) := by
  rw [reduce, reduceNat_eq_mod h]

/-- Reduce's 89 bits hold the whole residue. -/
theorem reduce_toNat {y : Nat} (h : y < 2 ^ 178) : (reduce y).toNat = y % p := by
  have hlt : y % p < p := Nat.mod_lt y (by decide)
  rw [reduce_eq_ofNat h, BitVec.toNat_ofNat, Nat.mod_eq_of_lt (Nat.lt_trans hlt (by decide))]

/-- After two folds only the multiples of p stand at p. -/
theorem fold_fold_eq_p_iff {y : Nat} (h : y < 2 ^ 178) (hy : 0 < y) : fold (fold y) = p ↔ y % p = 0 := by
  have hle : fold (fold y) ≤ p := fold_le_p (fold_le h)
  have hpos : 0 < fold (fold y) := fold_pos (fold_pos hy)
  rw [← fold_mod_p y, ← fold_mod_p (fold y), ← Nat.dvd_iff_mod_eq_zero]
  exact ⟨fun e => e ▸ dvd_rfl, fun hd => Nat.le_antisymm hle (Nat.le_of_dvd hpos hd)⟩

/-- p is a Mersenne prime, by the Lucas–Lehmer test. -/
theorem prime_p : p.Prime := lucas_lehmer_sufficiency 89 (by norm_num) (by norm_num)

/-- No product of two values in [1, p) is a multiple of p. -/
theorem mul_mod_p_ne_zero {a b : Nat} (ha : 0 < a) (hap : a < p) (hb : 0 < b) (hbp : b < p) : a * b % p ≠ 0 := by
  intro h
  obtain hd | hd := prime_p.dvd_mul.mp (Nat.dvd_of_mod_eq_zero h)
  · exact Nat.not_le.mpr hap (Nat.le_of_dvd ha hd)
  · exact Nat.not_le.mpr hbp (Nat.le_of_dvd hb hd)

/-! ### The commit of a field register -/

/-- The commit of a number to F[d] changes F[d] and BUSY only. -/
theorem commit_writeF (s : State) (d : Reg) (v : Nat) :
    s.commit (.writeF d (BitVec.ofNat 89 v)) = s.completedF d v := rfl

/-- The commit of a reduced value to F[d] leaves its residue there. -/
theorem commit_writeF_reduce (s : State) (d : Reg) {y : Nat} (h : y < 2 ^ 178) :
    s.commit (.writeF d (reduce y)) = s.completedF d (y % p) := by
  rw [reduce_eq_ofNat h, commit_writeF]

/-! ### Draws -/

/-- A draw is the word's RAND_BITS bits mod p (R99). -/
theorem State.coef_eq (s : State) (w : RandWord) : s.coef w = BitVec.ofNat 89 (drawValue s.params w) :=
  reduce_eq_ofNat (Nat.lt_of_le_of_lt (Nat.mod_le _ _) w.isLt)

/-- A drawing command that holds too few words, with none offered, only stays in flight. -/
theorem State.drawThen_starved (s : State) {need : Nat} (w : Word32) (k : List FieldWord → CmdOutcome)
    (hr : s.rnd = []) (hl : s.drawsHeld.length < need) :
    s.drawThen need w k = { s with inFlight := some (s.flightOr w) } := by
  have hd : ({ s.flightOr w with draws := s.drawsHeld } : InFlight) = s.flightOr w := by
    rw [← s.flightOr_draws w]
  rw [s.drawThen_waits w k (by rw [hr]; exact hl), hr, List.map_nil, List.append_nil, hd, ← hr]

end Sys2Proof.Machine
end

section
/-! The statements on the field arithmetic of 40_field_arith.md, settled. -/

namespace Sys2Proof.Machine

open Config

/-- Settles O12; Fold leaves p itself as it is, where p mod p is 0. -/
theorem foldKeepsResidue : Obligations.FoldKeepsResidue := by
  refine ⟨fun y => ⟨?_, fold_mod_p y⟩, p, by decide, by decide⟩
  rw [fold, Nat.shiftRight_eq_div_pow]

/-- Settles O13: two folds end at p for the non-zero multiples of p only, and p is prime. -/
theorem reduceIsModP : Obligations.ReduceIsModP := by
  refine ⟨fun y hy => ⟨fold_le hy, fold_le_p (fold_le hy), reduce_toNat hy, reduce_lt hy, fun h0 hm => ?_⟩, ?_⟩
  · exact (fold_fold_eq_p_iff hy (Nat.pos_of_ne_zero h0)).mpr hm
  · intro a b ha hap hb hbp
    have hab : a * b < 2 ^ 178 := Nat.lt_trans (Nat.mul_lt_mul'' hap hbp) (by decide)
    refine lt_of_le_of_ne (fold_le_p (fold_le hab)) fun he => ?_
    exact mul_mod_p_ne_zero ha hap hb hbp ((fold_fold_eq_p_iff hab (Nat.mul_pos ha hb)).mp he)

/-- Settles O15: NOP commits no writes. -/
theorem nopOnlyCompletes : Obligations.NopOnlyCompletes :=
  ⟨Laws.rowDecodes .nop fun _ => rfl, fun s => congrArg Host.Outcome.next (s.commit_writes none none none)⟩

/-- Settles O16: the sum of two field registers is in Reduce's range. -/
theorem faddAddsModP : Obligations.FaddAddsModP :=
  ⟨Laws.rowDecodes .fadd fun _ => rfl, fun s d _ _ =>
    congrArg Host.Outcome.next (commit_writeF_reduce s d (by omega))⟩

/-- Settles O17: the product of two field registers is in Reduce's range. -/
theorem fmulMultipliesModP : Obligations.FmulMultipliesModP :=
  ⟨Laws.rowDecodes .fmul fun _ => rfl, fun s d a b =>
    congrArg Host.Outcome.next (commit_writeF_reduce s d (mul_field_lt (s.src a) (s.src b)))⟩

/-- Settles O18: WIDE is in Reduce's range. -/
theorem fredReducesWide : Obligations.FredReducesWide :=
  ⟨Laws.rowDecodes .fred fun _ => rfl, fun s d =>
    congrArg Host.Outcome.next (commit_writeF_reduce s d s.operands.wide.isLt)⟩

/-- Settles O19: FRAND needs one draw; with one, held or taken now, it commits it, and with none it waits. -/
theorem frandWritesOneDraw : Obligations.FrandWritesOneDraw := by
  refine ⟨Laws.rowDecodes .frand fun _ => rfl, fun s d => ⟨fun ws rest v hr hv => ?_, fun hd hr => ?_⟩⟩
  · have hcoef : ws.map s.coef = ws.map fun w => BitVec.ofNat 89 (drawValue s.params w) :=
      List.map_congr_left fun w _ => s.coef_eq w
    have hlen : s.drawsHeld.length + ws.length = 1 := by simpa using congrArg List.length hv
    rw [exec, execFrand, drawsNeeded, s.drawThen_commits _ _ hr hlen, hcoef, hv,
      List.headD_cons, commit_writeF]
  · rw [exec, execFrand, drawsNeeded, s.drawThen_starved _ _ hr (by rw [hd]; exact Nat.one_pos)]

end Sys2Proof.Machine
end

section
/-! SUPPORT. The slot construction commands (41_hash_config.md R110 to R116): the slot check and the width check on a legal
slot, the coefficients as numbers, and what an evaluation of a NONE slot answers (60_exceptions.md R154). -/

namespace Sys2Proof.Machine

open Config

/-! ### The checks, and the commit of a constructed slot -/

/-- A legal slot number passes the slot check. -/
theorem withSlot_slotField (n : Fin 4) (k : Fin 4 → CmdOutcome) : withSlot (slotField n) k = k n :=
  withSlot_of_lt n.isLt k

/-- The commit of a slot whose fields are given as numbers changes the slot and BUSY only. -/
theorem commit_writeSlot (s : State) (n : Fin 4) (k : Kind) (w : Width) (c0 c1 c2 c3 : Nat) :
    s.commit (.writeSlot n
      (mkSlot k w (BitVec.ofNat 89 c0) (BitVec.ofNat 89 c1) (BitVec.ofNat 89 c2) (BitVec.ofNat 89 c3))) =
      s.completedSlot n k w.val c0 c1 c2 c3 := by
  rw [mkSlot, width_ofFin]
  rfl

/-- A width in the kind's range: the construction of a slot commits it. -/
theorem commit_construction_of_ok (s : State) (n : Fin 4) {k : Kind} {w : Width} (h : 1 ≤ w.val ∧ w.val ≤ maxWidth k)
    (c0 c1 c2 c3 : Nat) :
    s.commit (withSlot (slotField n) fun i => withWidth k w (.writeSlot i
      (mkSlot k w (BitVec.ofNat 89 c0) (BitVec.ofNat 89 c1) (BitVec.ofNat 89 c2) (BitVec.ofNat 89 c3)))) =
      s.completedSlot n k w.val c0 c1 c2 c3 := by
  rw [withSlot_slotField, withWidth_of_ok h, commit_writeSlot]

/-- A width outside the kind's range ends the construction with INVALID_PARAMETER. -/
theorem commit_construction_of_bad (s : State) (n : Fin 4) {k : Kind} {w : Width}
    (h : ¬(1 ≤ w.val ∧ w.val ≤ maxWidth k)) (o : Fin 4 → CmdOutcome) :
    s.commit (withSlot (slotField n) fun i => withWidth k w (o i)) = s.completedError .invalidParameter := by
  rw [withSlot_slotField, withWidth_of_bad h, State.commit_error_eq, State.completedError]

/-- The unconstructed slot is the NONE slot with zeros (R111). -/
theorem Slot.empty_eq_mkSlot :
    Slot.empty = mkSlot .none 0 (BitVec.ofNat 89 0) (BitVec.ofNat 89 0) (BitVec.ofNat 89 0) (BitVec.ofNat 89 0) := rfl

/-! ### The coefficients as numbers -/

/-- Setting bit 0 of a number adds 1 to it where it is even. -/
theorem or_one_eq_ite (m : Nat) : m ||| 1 = if m % 2 = 1 then m else m + 1 := by
  have hlow : (m ||| 1) % 2 = 1 := Nat.or_mod_two_eq_one.mpr (.inr rfl)
  have hhigh : (m ||| 1) / 2 = m / 2 := by rw [Nat.or_div_two, Nat.div_eq_of_lt Nat.one_lt_two, Nat.or_zero]
  split <;> omega

/-- The odd coefficient is the key with bit 0 set. -/
theorem oddCoef_toNat (v : FieldWord) : (oddCoef v).toNat = v.toNat % 2 ^ 64 ||| 1 := by
  rw [oddCoef, BitVec.toNat_or, BitVec.toNat_setWidth]
  rfl

/-- The coefficient that HCFGMS stores, as the number R112 gives. -/
theorem oddCoef_eq_ofNat (v : FieldWord) :
    (oddCoef v).setWidth 89 =
      BitVec.ofNat 89 (if v.toNat % 2 ^ 64 % 2 = 1 then v.toNat % 2 ^ 64 else v.toNat % 2 ^ 64 + 1) := by
  rw [← or_one_eq_ite, ← oddCoef_toNat, BitVec.ofNat_toNat]

/-- A field register reduced is its residue. -/
theorem reduce_field_eq (v : FieldWord) : reduce v.toNat = BitVec.ofNat 89 (v.toNat % p) :=
  reduce_eq_ofNat (Nat.lt_trans v.isLt (by decide))

/-- A register of HCFGP3's group reduced is the group's residue: indices wrap mod 16 (R73, R114). -/
theorem State.reduce_srcGroup (s : State) (a k : Reg) :
    reduce (s.srcGroup a k).toNat = BitVec.ofNat 89 (s.groupNat a k.val) :=
  reduce_field_eq (s.srcGroup a k)

/-- Words taken from the port, as coefficients. -/
theorem State.map_coef (s : State) (ws : List RandWord) :
    ws.map s.coef = ws.map fun w => BitVec.ofNat 89 (drawValue s.params w) :=
  List.map_congr_left fun w _ => s.coef_eq w

/-! ### How many draws HSKETCH needs (R116) -/

/-- A legal slot and a width in range pass both checks: HSKETCH needs four. -/
theorem drawsNeeded_hsketch_of_ok (n : Fin 4) {w : Width} (h : 1 ≤ w.val ∧ w.val ≤ 64) :
    drawsNeeded (.hsketch (slotField n) w) = 4 := by
  have hn : slotLegal (slotField n) = true := decide_eq_true n.isLt
  have hw : widthOk .poly3 w = true := decide_eq_true h
  rw [drawsNeeded, hn, hw, Bool.and_self, if_pos rfl]

/-- A width out of range fails its check: HSKETCH draws nothing. -/
theorem drawsNeeded_hsketch_of_bad (n : SlotField) {w : Width} (h : ¬(1 ≤ w.val ∧ w.val ≤ 64)) :
    drawsNeeded (.hsketch n w) = 0 := by
  have hw : widthOk .poly3 w = false := decide_eq_false h
  rw [drawsNeeded, hw, Bool.and_false, if_neg Bool.false_ne_true]

/-! ### Evaluation of a NONE slot (R154) -/

/-- The evaluation of a NONE slot ends with UNCONFIGURED, whatever the command would write. -/
theorem commit_evalThen_of_none {s : State} {n : Fin 4} (h : (s.slotAt n).kind = .none) (a : Reg)
    (k : HashOut → CmdOutcome) : s.commit (evalThen (slotField n) a s k) = s.completedError .unconfigured := by
  have hnone : hashEval s.operands.slots[n] (keyOf (s.src a)) = none := by
    rw [hashEval, show s.operands.slots[n].kind = .none from h]
  rw [evalThen, withSlot_slotField, hnone, State.commit_error_eq, State.completedError]

/-- A block left idle by a construction reads the constructed slot back. -/
theorem State.completedSlot_slotAt_kind (s : State) (n : Fin 4) (k : Kind) (w c0 c1 c2 c3 : Nat) :
    ((s.completedSlot n k w c0 c1 c2 c3).slotAt n).kind = k := by
  simp [State.slotAt, State.completedSlot, State.operands]

end Sys2Proof.Machine
end

section
/-! The statements on the slot construction of 41_hash_config.md, settled. -/

namespace Sys2Proof.Machine

open Config

/-- Settles O20: every command first draws what it needs, and with too few words that is all it does. -/
theorem drawCommandWaitsForWords : Obligations.DrawCommandWaitsForWords := by
  intro s i h
  obtain ⟨k, hk, -⟩ := exec_shape i s
  rw [hk, s.drawThen_waits _ k h, s.map_coef]

/-- Settles O21: HCLR commits the empty slot, and an idle block that holds it evaluates a NONE slot. -/
theorem hclrEmptiesSlot : Obligations.HclrEmptiesSlot := by
  refine ⟨Laws.rowDecodes .hclr fun _ => rfl, fun s n => ⟨?_, fun d a => ?_⟩⟩
  · rw [exec, execHclr, withSlot_slotField, Slot.empty_eq_mkSlot, commit_writeSlot]
    rfl
  · have hnone : ((s.completedSlot n .none 0 0 0 0 0).slotAt n).kind = .none := s.completedSlot_slotAt_kind n _ _ _ _ _ _
    exact ⟨congrArg Host.Outcome.next (commit_evalThen_of_none hnone a _),
      congrArg Host.Outcome.next (commit_evalThen_of_none hnone a _)⟩

/-- Settles O22: the coefficient is the key with bit 0 set. -/
theorem hcfgmsBuildsMultiplyShift : Obligations.HcfgmsBuildsMultiplyShift := by
  refine ⟨Laws.rowDecodes .hcfgms fun _ => rfl, fun s n a w => ⟨fun hw => ?_, fun hw => ?_⟩⟩
  · rw [exec, execHcfgms, oddCoef_eq_ofNat]
    exact congrArg Host.Outcome.next (commit_construction_of_ok s n hw _ 0 0 0)
  · exact congrArg Host.Outcome.next (commit_construction_of_bad s n hw _)

/-- Settles O23: both coefficients are field registers reduced. -/
theorem hcfgmpBuildsMultiplyModP : Obligations.HcfgmpBuildsMultiplyModP := by
  refine ⟨Laws.rowDecodes .hcfgmp fun _ => rfl, fun s n a b w => ⟨fun hw => ?_, fun hw => ?_⟩⟩
  · rw [exec, execHcfgmp, reduce_field_eq, reduce_field_eq]
    exact congrArg Host.Outcome.next (commit_construction_of_ok s n hw _ _ 0 0)
  · exact congrArg Host.Outcome.next (commit_construction_of_bad s n hw _)

/-- Settles O24: the four coefficients are the group's registers reduced. -/
theorem hcfgpBuildsPolynomial : Obligations.HcfgpBuildsPolynomial := by
  refine ⟨Laws.rowDecodes .hcfgp3 fun _ => rfl, fun s n a w => ⟨fun hw => ?_, fun hw => ?_⟩⟩
  · simp only [exec, execHcfgp3, State.reduce_srcGroup]
    exact congrArg Host.Outcome.next (commit_construction_of_ok s n hw _ _ _ _)
  · exact congrArg Host.Outcome.next (commit_construction_of_bad s n hw _)

/-- Settles O25: HSKETCH on a legal width needs four draws, which it commits or waits for; on another width it needs
none. -/
theorem hsketchBuildsFromFourDraws : Obligations.HsketchBuildsFromFourDraws := by
  refine ⟨Laws.rowDecodes .hsketch fun _ => rfl, fun s n w => ⟨fun hw => ⟨?_, fun hl => ?_⟩, fun hw => ?_⟩⟩
  · intro ws rest c0 c1 c2 c3 hr hv
    have hlen : s.drawsHeld.length + ws.length = 4 := by simpa using congrArg List.length hv
    rw [exec, execHsketch, drawsNeeded_hsketch_of_ok n hw, s.drawThen_commits _ _ hr hlen, s.map_coef, hv]
    exact congrArg Host.Outcome.next (commit_construction_of_ok _ n hw c0 c1 c2 c3)
  · have hneed : drawsNeeded (.hsketch (slotField n) w) = 4 := drawsNeeded_hsketch_of_ok n hw
    exact ⟨_, drawCommandWaitsForWords s (.hsketch (slotField n) w) (hneed ▸ hl), rfl, rfl, rfl⟩
  · rw [exec, execHsketch, drawsNeeded_hsketch_of_bad _ hw, State.drawThen_zero]
    exact congrArg Host.Outcome.next (commit_construction_of_bad s n hw _)

/-- Settles O26: both commands complete with the slot of the same four numbers. -/
theorem sketchSlotEqualsGivenPolynomial : Obligations.SketchSlotEqualsGivenPolynomial := by
  intro s n a w w0 w1 w2 w3 rest hw hd hr h0 h1 h2 h3
  obtain ⟨hsketch, -⟩ := (hsketchBuildsFromFourDraws.2 s n w).1 hw
  refine ⟨_, _, hsketch [w0, w1, w2, w3] rest _ _ _ _ hr ?_, (hcfgpBuildsPolynomial.2 s n a w).1 hw, rfl, rfl⟩
  simp only [hd, List.nil_append, List.map_cons, List.map_nil, h0, h1, h2, h3]

end Sys2Proof.Machine
end

section
/-! SUPPORT. Hash evaluation (42_hash_eval.md R130 to R137): Horner's rule as the cubic mod p, HashEval kind by kind in
numbers, what HEVAL and HGVAL commit, and the ranges of the values. -/

namespace Sys2Proof.Machine

open Config

/-! ### Horner's rule (R131) -/

/-- A Horner step is multiply and add mod p: both of its values are in Reduce's range. -/
theorem hornerStep_toNat (x : Key) (acc ck : FieldWord) :
    (hornerStep x acc ck).toNat = (acc.toNat * x.toNat + ck.toNat) % p := by
  have hmul : acc.toNat * x.toNat < 2 ^ 178 := Nat.lt_trans (mul_key_lt acc x) (by decide)
  rw [hornerStep, reduce_toNat (by omega), reduce_toNat hmul, Nat.mod_add_mod]

/-- A residue that enters a Horner step may be left unreduced. -/
theorem mod_mul_add_mod (a x c : Nat) : (a % p * x + c) % p = (a * x + c) % p :=
  ((Nat.mod_modEq a p).mul_right x).add_right c

/-- Poly3 is the cubic mod p: only the last reduction of Horner's rule counts. -/
theorem poly3_toNat (co : Vector FieldWord 4) (x : Key) :
    (poly3 co x).toNat = polyValue co[0].toNat co[1].toNat co[2].toNat co[3].toNat x.toNat := by
  simp only [poly3, hornerStep_toNat, mod_mul_add_mod]
  rw [polyValue]
  ring_nf

/-! ### HashEval in numbers (R130, R132 to R134) -/

/-- The key of a command, as the number the statements read (R130). -/
theorem State.keyOf_src_toNat (s : State) (a : Reg) : (keyOf (s.src a)).toNat = s.keyNat a :=
  BitVec.toNat_setWidth 64 (s.src a)

/-- SIGN's bit, read off the number (R134). -/
theorem signBit_eq (g : FieldWord) : signBit g = decide (g.toNat / 2 ^ 88 % 2 = 1) :=
  Nat.testBit_eq_decide_div_mod_eq

theorem mshiftRaw_toNat (c x : Key) : (mshiftRaw c x).toNat = c.toNat * x.toNat % 2 ^ 64 :=
  BitVec.toNat_mul c x

theorem mshiftOut_toNat (c : Key) (l : Nat) (x : Key) :
    (mshiftOut c l x).toNat = c.toNat * x.toNat % 2 ^ 64 / 2 ^ (64 - l) := by
  rw [mshiftOut, BitVec.toNat_ushiftRight, mshiftRaw_toNat, Nat.shiftRight_eq_div_pow]

/-- MModP's value before truncation is in Reduce's range. -/
theorem Slot.mmodpRaw_toNat (sl : Slot) (x : Key) :
    (mmodpRaw sl.coef[0] sl.coef[1] x).toNat = (sl.coefNat 0 * x.toNat + sl.coefNat 1) % p :=
  reduce_toNat (by have := mul_key_lt sl.coef[0] x; omega)

/-- g(x) of a slot is Poly3 of its coefficients. -/
theorem Slot.poly3_toNat (sl : Slot) (x : Key) : (poly3 sl.coef x).toNat = sl.gValue x.toNat :=
  Machine.poly3_toNat sl.coef x

section Kinds

variable {sl : Slot}

theorem hashEval_of_mshift (h : sl.kind = .mshift) (x : Key) :
    hashEval sl x = some
      { out := BitVec.ofNat 89 (sl.coefNat 0 % 2 ^ 64 * x.toNat % 2 ^ 64 / 2 ^ (64 - sl.width.toNat))
        raw := BitVec.ofNat 89 (sl.coefNat 0 % 2 ^ 64 * x.toNat % 2 ^ 64)
        sign := false } := by
  have hc : (sl.coef[0].setWidth 64).toNat = sl.coefNat 0 % 2 ^ 64 := BitVec.toNat_setWidth 64 sl.coef[0]
  rw [hashEval, h, ← hc, ← mshiftOut_toNat, ← mshiftRaw_toNat, BitVec.ofNat_toNat, BitVec.ofNat_toNat]

theorem hashEval_of_mmodp (h : sl.kind = .mmodp) (x : Key) :
    hashEval sl x = some
      { out := BitVec.ofNat 89 ((sl.coefNat 0 * x.toNat + sl.coefNat 1) % p % 2 ^ sl.width.toNat)
        raw := BitVec.ofNat 89 ((sl.coefNat 0 * x.toNat + sl.coefNat 1) % p)
        sign := false } := by
  rw [hashEval, h, ← sl.mmodpRaw_toNat, BitVec.ofNat_toNat, BitVec.setWidth_eq]
  rfl

theorem hashEval_of_poly3 (h : sl.kind = .poly3) (x : Key) :
    hashEval sl x = some
      { out := BitVec.ofNat 89 (sl.gValue x.toNat % 2 ^ sl.width.toNat)
        raw := BitVec.ofNat 89 (sl.gValue x.toNat)
        sign := decide (sl.gValue x.toNat / 2 ^ 88 % 2 = 1) } := by
  rw [hashEval, h, ← sl.poly3_toNat, ← signBit_eq, BitVec.ofNat_toNat, BitVec.setWidth_eq]
  rfl

end Kinds

/-! ### The commands on a slot that evaluates (R135, R136) -/

section Commands

variable {s : State} {n : Fin 4} {a : Reg} {h : HashOut} (e : hashEval (s.slotAt n) (keyOf (s.src a)) = some h)

include e

/-- The evaluation of a constructed slot goes on with its triple. -/
theorem evalThen_of_some (k : HashOut → CmdOutcome) : evalThen (slotField n) a s k = k h := by
  rw [evalThen, withSlot_slotField, show hashEval s.operands.slots[n] (keyOf (s.src a)) = some h from e]

theorem exec_heval_of_some (d : Reg) :
    exec (.heval d a (slotField n)) s = .next (s.commit (.writes (some (d, h.out)) none (some h.sign))) := by
  rw [exec, execHeval, evalThen_of_some e]

theorem exec_hgval_of_some (d : Reg) :
    exec (.hgval d a (slotField n)) s = .next (s.commit (.writeF d h.raw)) := by
  rw [exec, execHgval, evalThen_of_some e]

end Commands

/-! ### Ranges (R137) -/

/-- Every constructed slot evaluates. -/
theorem exists_hashEval {sl : Slot} (h : sl.kind ≠ .none) (x : Key) : ∃ y, hashEval sl x = some y := by
  cases hk : sl.kind with
  | none => exact absurd hk h
  | mshift => exact ⟨_, hashEval_of_mshift hk x⟩
  | mmodp => exact ⟨_, hashEval_of_mmodp hk x⟩
  | poly3 => exact ⟨_, hashEval_of_poly3 hk x⟩

/-- The width of a MSHIFT slot of R24's table is at most 63. -/
theorem Slot.width_le_of_mshift {sl : Slot} (hwf : sl.wf = true) (hk : sl.kind = .mshift) : sl.width.toNat ≤ 63 := by
  simp only [Slot.wf, hk, Bool.and_eq_true, decide_eq_true_eq] at hwf
  omega

/-- A number below a bound stays below it in a field register. -/
theorem ofNat_toNat_lt {v b : Nat} (h : v < b) : (BitVec.ofNat 89 v).toNat < b := by
  rw [BitVec.toNat_ofNat]
  exact Nat.lt_of_le_of_lt (Nat.mod_le _ _) h

/-- The top l bits of a 64-bit number are below 2^l. -/
theorem topBits_lt {y l : Nat} (hl : l ≤ 64) : y % 2 ^ 64 / 2 ^ (64 - l) < 2 ^ l := by
  refine Nat.div_lt_of_lt_mul ?_
  rw [← Nat.pow_add, Nat.sub_add_cancel hl]
  exact Nat.mod_lt _ (by decide)

/-- h(x) is below 2^width. -/
theorem hashEval_out_lt {sl : Slot} {x : Key} {y : HashOut} (hwf : sl.wf = true) (e : hashEval sl x = some y) :
    y.out.toNat < 2 ^ sl.width.toNat := by
  cases hk : sl.kind with
  | none => rw [hashEval, hk] at e; cases e
  | mshift =>
    rw [hashEval_of_mshift hk] at e
    cases e
    exact ofNat_toNat_lt (topBits_lt (Nat.le_succ_of_le (Slot.width_le_of_mshift hwf hk)))
  | mmodp =>
    rw [hashEval_of_mmodp hk] at e
    cases e
    exact ofNat_toNat_lt (Nat.mod_lt _ (Nat.two_pow_pos _))
  | poly3 =>
    rw [hashEval_of_poly3 hk] at e
    cases e
    exact ofNat_toNat_lt (Nat.mod_lt _ (Nat.two_pow_pos _))

/-- The value before truncation of a MSHIFT slot has 64 bits. -/
theorem hashEval_raw_lt_of_mshift {sl : Slot} {x : Key} {y : HashOut} (hk : sl.kind = .mshift)
    (e : hashEval sl x = some y) : y.raw.toNat < 2 ^ 64 := by
  rw [hashEval_of_mshift hk] at e
  cases e
  exact ofNat_toNat_lt (Nat.mod_lt _ (by decide))

/-- A sign of 1 is bit 88 of the value before truncation. -/
theorem hashEval_raw_ge_of_sign {sl : Slot} {x : Key} {y : HashOut} (e : hashEval sl x = some y)
    (hs : y.sign = true) : 2 ^ 88 ≤ y.raw.toNat := by
  unfold hashEval at e
  split at e <;> cases e
  · cases hs
  · cases hs
  · exact Nat.ge_two_pow_of_testBit hs

end Sys2Proof.Machine
end

section
/-! The statements on the hash evaluation of 42_hash_eval.md, settled. -/

namespace Sys2Proof.Machine

open Config

/-- Settles O14: each Horner step multiplies and adds mod p. -/
theorem hornerIsThePolynomial : Obligations.HornerIsThePolynomial :=
  poly3_toNat

/-- Settles O28: the commit of HashEval's value and sign, kind by kind. -/
theorem hevalWritesHashAndSign : Obligations.HevalWritesHashAndSign := by
  refine ⟨Laws.rowDecodes .heval fun _ => rfl, fun s d a n => ⟨fun hk => ?_, fun hk => ?_, fun hk => ?_, fun hk => ?_⟩⟩
  · rw [exec_heval_of_some (hashEval_of_mshift hk _), s.keyOf_src_toNat]
    rfl
  · rw [exec_heval_of_some (hashEval_of_mmodp hk _), s.keyOf_src_toNat]
    rfl
  · rw [exec_heval_of_some (hashEval_of_poly3 hk _), s.keyOf_src_toNat]
    rfl
  · exact congrArg Host.Outcome.next (commit_evalThen_of_none hk a _)

/-- Settles O29: the commit of HashEval's value before truncation, kind by kind. -/
theorem hgvalWritesRawValue : Obligations.HgvalWritesRawValue := by
  refine ⟨Laws.rowDecodes .hgval fun _ => rfl, fun s d a n => ⟨fun hk => ?_, fun hk => ?_, fun hk => ?_, fun hk => ?_⟩⟩
  · rw [exec_hgval_of_some (hashEval_of_mshift hk _), s.keyOf_src_toNat, commit_writeF]
  · rw [exec_hgval_of_some (hashEval_of_mmodp hk _), s.keyOf_src_toNat, commit_writeF]
  · rw [exec_hgval_of_some (hashEval_of_poly3 hk _), s.keyOf_src_toNat, commit_writeF]
  · exact congrArg Host.Outcome.next (commit_evalThen_of_none hk a _)

/-- Settles O30: both commands commit values of one evaluation, and each value is in its range. -/
theorem hashOutputsAreInRange : Obligations.HashOutputsAreInRange := by
  intro s d a n hwf hk
  obtain ⟨y, e⟩ := exists_hashEval hk (keyOf (s.src a))
  obtain ⟨-, hraw⟩ := hashEval_lt e
  have hout : y.out.toNat < 2 ^ (s.slotAt n).width.toNat := hashEval_out_lt hwf e
  have hheval : (s.commit (.writes (some (d, y.out)) none (some y.sign))).regs.f[d] = y.out :=
    Vector.getElem_set_self d.isLt
  have hhgval : (s.commit (.writeF d y.raw)).regs.f[d] = y.raw := Vector.getElem_set_self d.isLt
  refine ⟨_, _, exec_heval_of_some e d, exec_hgval_of_some e d, ?_⟩
  rw [hheval, hhgval]
  refine ⟨hout, fun hm => ⟨hashEval_raw_lt_of_mshift hm e, ?_⟩, fun _ => hraw, fun hs => ⟨?_, Nat.le_pred_of_lt hraw⟩⟩
  · exact Nat.lt_of_lt_of_le hout (Nat.pow_le_pow_right Nat.two_pos (Slot.width_le_of_mshift hwf hm))
  · exact hashEval_raw_ge_of_sign e hs

end Sys2Proof.Machine
end

section
/-! SUPPORT. What makes a command word illegal (30_encoding.md R76, 60_exceptions.md R152). -/

namespace Sys2Proof.Laws

open Sys2Proof

/-- Two rows of the opcode map with one OPC are one row. -/
theorem code_injective {o o' : Opcode} (h : o.code = o'.code) : o = o' :=
  Option.some.inj (by rw [← ofCode?_code o, h, ofCode?_code o'])

/-- A word that matches a row has RSV = 0: every row's mask covers RSV. -/
theorem rsvOf_of_match {w : Word32} {o : Opcode} (h : w &&& o.mask = o.pattern) : rsvOf w = 0 :=
  calc rsvOf w = rsvOf (w &&& o.mask) := by rw [rsvOf_and, (mask_covers o).2, BitVec.and_allOnes]
    _ = 0 := by rw [h, pattern_eq, rsvOf_packWord]

/-- Each of R76's four cases makes a word illegal: a legal word has the OPC of the row it matches, RSV = 0, and a SLOT
below 4 if its row uses SLOT. -/
theorem decode_error_of_illegal {w : Word32}
    (h : (∀ o : Opcode, opcOf w ≠ o.code) ∨
      rsvOf w ≠ 0 ∨
      (∃ o : Opcode, opcOf w = o.code ∧ w &&& o.mask ≠ o.pattern) ∨
      ∃ o : Opcode, opcOf w = o.code ∧ (o.build w).slot?.isSome = true ∧ 4 ≤ (slotOf w).toNat) :
    ∃ e, decode w = .error e := by
  cases hd : decode w with
  | error e => exact ⟨e, rfl⟩
  | ok i =>
    obtain ⟨row, hm, rfl, hwf⟩ := decode_eq_ok_iff.mp hd
    have hopc : opcOf w = row.code := opcOf_of_match hm
    obtain hno | hrsv | ⟨o, ho, hne⟩ | ⟨o, ho, hslot, hge⟩ := h
    · exact absurd hopc (hno row)
    · exact absurd (rsvOf_of_match hm) hrsv
    · obtain rfl := code_injective (hopc.symm.trans ho)
      exact absurd hm hne
    · obtain rfl := code_injective (hopc.symm.trans ho)
      exact absurd (build_wf_iff.mp hwf hslot) (Nat.not_lt.mpr hge)

end Sys2Proof.Laws
end

section
/-! SUPPORT. The engine's cycle, case by case (60_exceptions.md R152, R164, R165; 70_reset_and_hazards.md R174, R178): a
stall, a cycle before LATENCY(op), and the commit of an illegal word; that no word and no input stops the block (R150);
and which commit changes ERRCODE (R158, R160). -/

namespace Sys2Proof.Machine

/-! ### The draws a word needs -/

theorem wordDraws_of_ok {w : Word32} {i : Instr} (hd : decode w = .ok i) : wordDraws w = drawsNeeded i := by
  simp only [wordDraws, hd]

/-- An illegal word draws nothing (R116, R152). -/
theorem wordDraws_of_error {w : Word32} {e : Illegal} (hd : decode w = .error e) : wordDraws w = 0 := by
  simp only [wordDraws, hd]

theorem drawsHeld_of_inFlight {s : State} {fl : InFlight} (hf : s.inFlight = some fl) : s.drawsHeld = fl.draws := by
  simp only [State.drawsHeld, hf]

/-! ### A stall -/

section Stall

variable {s : State} {fl : InFlight} (hf : s.inFlight = some fl) (hr : s.rnd = [])
include hf hr

/-- With no word offered the random port moves nothing. -/
theorem takeOneDraw_of_nothingOffered : s.takeOneDraw fl = s := by
  have hfl : s.flightOr fl.cmd = fl := by simp only [State.flightOr, hf, Option.getD_some]
  simp only [State.takeOneDraw, State.takeDraws, hfl, hr, List.drop_nil, List.take_nil, List.map_nil, List.append_nil]
  rw [← hf, ← hr]

variable (hneed : fl.draws.length < wordDraws fl.cmd)
include hneed

/-- A stall is not counted. -/
theorem counted_of_stall : s.counted fl = { s with env := s.env.tail } := by
  simp only [State.counted, hneed, hr, and_self, if_true, ← hf]

/-- From LATENCY(op) on the command waits as it stands. -/
theorem runLatched_of_stall : s.runLatched fl.cmd = .next s := by
  cases hd : decode fl.cmd with
  | error e => exact absurd hneed (by rw [wordDraws_of_error hd]; exact Nat.not_lt_zero _)
  | ok i =>
    have hheld : s.drawsHeld.length < drawsNeeded i := by rwa [drawsHeld_of_inFlight hf, ← wordDraws_of_ok hd]
    obtain ⟨k, e, -⟩ := exec_shape i s
    simp only [State.runLatched, hd, e, s.drawThen_starved _ k hr hheld, State.flightOr, hf, Option.getD_some]
    rw [← hf]

/-- A stalled cycle only uses up its input, before LATENCY(op) and from then on. -/
theorem step_of_stall (hn : s.engineNext = true) : step s = .next { s with env := s.env.tail } := by
  rw [step_of_inFlight hn hf, counted_of_stall hf hr hneed]
  split
  · exact congrArg Host.Outcome.next (takeOneDraw_of_nothingOffered (s := { s with env := s.env.tail }) hf hr)
  · exact runLatched_of_stall (s := { s with env := s.env.tail }) hf hr hneed

end Stall

/-! ### A counted cycle -/

/-- Any cycle but a stall is counted. -/
theorem counted_of_not_stall {s : State} {fl : InFlight} (h : ¬(fl.draws.length < wordDraws fl.cmd ∧ s.rnd = [])) :
    s.counted fl =
      { s with env := s.env.tail, inFlight := some { fl with elapsed := fl.elapsed + 1 } } := by
  simp only [State.counted, h, if_false]

section BeforeLatency

variable {s : State} {fl : InFlight} (hn : s.engineNext = true) (hf : s.inFlight = some fl)
  (hlat : fl.elapsed + 1 < s.params.latency (opcOf fl.cmd))
include hn hf hlat

/-- A command that needs no further draw counts the cycle. -/
theorem step_of_noDraw (hheld : wordDraws fl.cmd ≤ fl.draws.length) :
    step s = .next { s with env := s.env.tail, inFlight := some { fl with elapsed := fl.elapsed + 1 } } := by
  rw [step_of_inFlight hn hf, if_pos hlat, counted_of_not_stall fun h => absurd h.1 (Nat.not_lt.mpr hheld),
    takeOneDraw_idle _ rfl hheld]
  rfl

/-- A command that needs a draw counts the cycle and takes the oldest word. -/
theorem step_of_oneDraw (hneed : fl.draws.length < wordDraws fl.cmd) {w : RandWord} {rest : List RandWord}
    (hr : s.rnd = w :: rest) :
    step s = .next { s with
      env := s.env.tail
      rnd := rest
      inFlight := some { fl with elapsed := fl.elapsed + 1, draws := fl.draws ++ [s.coef w] } } := by
  rw [step_of_inFlight hn hf, if_pos hlat, counted_of_not_stall fun h => absurd (hr.symm.trans h.2) nofun]
  exact congrArg Host.Outcome.next (takeOneDraw_cons { s with
    env := s.env.tail
    inFlight := some { fl with elapsed := fl.elapsed + 1 } } rfl hneed hr)

end BeforeLatency

/-! ### The commit of an illegal word -/

/-- At LATENCY(op) an illegal word commits ILLEGAL_CMD (R152). -/
theorem step_of_illegal {s : State} {fl : InFlight} {e : Illegal} (hn : s.engineNext = true)
    (hf : s.inFlight = some fl) (hd : decode fl.cmd = .error e)
    (hlat : s.params.latency (opcOf fl.cmd) ≤ fl.elapsed + 1) :
    step s = .next (State.completedError { s with env := s.env.tail } .illegalCmd) := by
  rw [step_of_inFlight hn hf, if_neg (Nat.not_lt.mpr hlat)]
  simp only [State.runLatched, hd, State.commit_error_eq]
  rfl

/-! ### Nothing stops the block -/

/-- A latched word answers a next state, legal or not. -/
theorem runLatched_next (s : State) (w : Word32) : ∃ t, s.runLatched w = .next t := by
  unfold State.runLatched
  split
  · obtain ⟨k, e, -⟩ := exec_shape _ s
    exact ⟨_, e⟩
  · exact ⟨_, rfl⟩

theorem engineCycle_next (s : State) : ∃ t, s.engineCycle = .next t := by
  unfold State.engineCycle
  split
  · exact ⟨_, rfl⟩
  · split
    · exact ⟨_, rfl⟩
    · exact runLatched_next _ _

theorem handle_next (s : State) (e : Input) : ∃ t, s.handle e = .next t := by
  cases e with
  | bus r => exact ⟨_, rfl⟩
  | offer w => exact ⟨_, rfl⟩
  | rst r => exact ⟨_, rfl⟩
  | cycle => exact engineCycle_next s

/-! ### A command that records an error -/

/-- A commit that changes ERRCODE is an error's, met with ERR = 0. -/
theorem error_of_commit_errcode {s : State} {o : CmdOutcome} (h : (s.commit o).status.errcode ≠ s.status.errcode) :
    s.status.err = false ∧ ∃ c, o = .error c := by
  refine ⟨Bool.eq_false_iff.mpr fun he => h (commit_status_of_err he o).2, ?_⟩
  cases o with
  | error c => exact ⟨c, rfl⟩
  | writes f sl sg => exact absurd (Status.write_errcode _ _) h

/-- The commit of an error met with ERR = 0 changes ERR, ERRCODE and BUSY (R158, R160). -/
theorem commit_error_of_noErr {s : State} (h : s.status.err = false) (c : ErrCode) :
    s.commit (.error c) =
      { s with status := { s.status with err := true, errcode := c }, inFlight := none } := by
  rw [State.commit_error, Status.record_of_noErr h]

end Sys2Proof.Machine
end

section
/-! The statements on errors and waits of 60_exceptions.md, settled. -/

namespace Sys2Proof.Machine

/-- Settles O7: the cycle of an idle block, the stall, and the two kinds of counted cycle before LATENCY(op). -/
theorem cycleBeforeLatencyOnlyDraws : Obligations.CycleBeforeLatencyOnlyDraws := by
  refine ⟨fun s => step_of_idle, fun s fl hn hf => ⟨fun hneed hr => step_of_stall hf hr hneed hn,
    step_of_noDraw hn hf, fun hlat hneed w rest hr => ?_⟩⟩
  rw [step_of_oneDraw hn hf hlat hneed hr, State.coef_eq]

/-- Settles O8: each cause makes the word illegal, and an illegal word needs no draw. -/
theorem illegalWordRecordsOnlyIllegalCmd : Obligations.IllegalWordRecordsOnlyIllegalCmd := by
  intro s fl hn hf hcause
  obtain ⟨e, hd⟩ := Laws.decode_error_of_illegal hcause
  have hheld : wordDraws fl.cmd ≤ fl.draws.length := by
    rw [wordDraws_of_error hd]
    exact Nat.zero_le _
  exact ⟨fun hlat => step_of_noDraw hn hf hlat hheld, step_of_illegal hn hf hd⟩

/-- Settles O11: with no input the stalled step is a fixed point, so by induction every run of it stays. -/
theorem starvedCommandHangs : Obligations.StarvedCommandHangs := by
  intro s fl henv hr hf hneed
  have hn : s.engineNext = true := by simp only [State.engineNext, henv]
  have hstep : step s = .next s := by
    rw [step_of_stall hf hr hneed hn, henv, List.tail_nil, ← henv]
  refine ⟨by simp only [State.busy, hf, Option.isSome_some], fun n => ?_⟩
  induction n with
  | zero => rfl
  | succ n ih => rw [core_run_next hstep, ih]

/-- Settles O32: a wait changes no ERRCODE, and the commit that does is an error's, of a command that draws nothing. -/
theorem erroredCommandTouchesOnlyStatus : Obligations.ErroredCommandTouchesOnlyStatus := by
  intro i s t hx hne
  obtain ⟨k, e, hk⟩ := exec_shape i s
  obtain rfl := Host.Outcome.next.inj (e.symm.trans hx)
  obtain ⟨-, hw⟩ | ⟨ws, rest, cs, hrnd, -, -, hzero, hc⟩ := s.drawThen_cases (drawsNeeded i) (encode i) k
  · exact absurd (by rw [hw]) hne
  · rw [hc] at hne ⊢
    obtain ⟨herr, c, hkc⟩ := error_of_commit_errcode (s := { s with rnd := rest }) hne
    have hfits : OutcomeFits i (.error c) := hkc ▸ hk cs
    obtain ⟨-, hdraws⟩ := hfits
    obtain rfl : rest = s.rnd := by rw [hrnd, hzero hdraws, List.nil_append]
    rw [hkc, commit_error_of_noErr herr]
    exact ⟨herr, rfl⟩

/-- Settles O34: an input is handled, and with none scheduled the engine has its cycle. -/
theorem stepNeverStops : Obligations.StepNeverStops := by
  intro s
  unfold step
  split
  · exact engineCycle_next s
  · exact handle_next _ _

end Sys2Proof.Machine
end

section
/-! SUPPORT. The cycle that reaches LATENCY(op), and a run with nothing scheduled of a command that needs no draw
(70_reset_and_hazards.md R174, R178, R179). -/

namespace Sys2Proof.Machine

/-- At LATENCY(op) a legal word runs as its command, on the state with the cycle counted (R174). -/
theorem step_of_latencyReached {s : State} {fl : InFlight} {i : Instr} (hn : s.engineNext = true)
    (hf : s.inFlight = some fl) (hlat : s.params.latency (opcOf fl.cmd) ≤ fl.elapsed + 1)
    (hd : decode fl.cmd = .ok i) : step s = exec i (s.counted fl) := by
  rw [step_of_inFlight hn hf, if_neg (Nat.not_lt.mpr hlat)]
  simp only [State.runLatched, hd]

/-- With no input scheduled the next step is the engine's (log entry 5). -/
theorem engineNext_of_noInput {s : State} (henv : s.env = []) : s.engineNext = true := by
  simp only [State.engineNext, henv]

/-- With no input scheduled a cycle uses none up. -/
theorem tail_of_noInput {s : State} (henv : s.env = []) : s.env.tail = s.env := by
  rw [henv, List.tail_nil]

/-- A command that needs no draw, `n + 1` cycles short of its LATENCY, runs at the last of them: each cycle before
that only counts. -/
theorem core_run_of_noDraw {i : Instr} (hneed : drawsNeeded i = 0) (n : Nat) {s : State} {fl : InFlight}
    (henv : s.env = []) (hf : s.inFlight = some fl) (hd : decode fl.cmd = .ok i)
    (hlat : s.params.latency (opcOf fl.cmd) = fl.elapsed + (n + 1)) :
    Host.Core.run Sys2Proof.core (n + 1) s =
      exec i { s with inFlight := some { fl with elapsed := s.params.latency (opcOf fl.cmd) } } := by
  have hn : s.engineNext = true := engineNext_of_noInput henv
  have hheld : wordDraws fl.cmd ≤ fl.draws.length := by
    rw [wordDraws_of_ok hd, hneed]
    exact Nat.zero_le _
  induction n generalizing s fl with
  | zero =>
    rw [core_run_one s (stepNeverStops s), step_of_latencyReached hn hf hlat.le hd,
      counted_of_not_stall fun h => absurd h.1 (Nat.not_lt.mpr hheld), tail_of_noInput henv, hlat]
  | succ n ih =>
    have hstep : step s = .next { s with inFlight := some { fl with elapsed := fl.elapsed + 1 } } := by
      rw [step_of_noDraw hn hf (by omega) hheld, tail_of_noInput henv]
    rw [core_run_next hstep]
    exact ih (fl := { fl with elapsed := fl.elapsed + 1 }) henv rfl hd
      (hlat.trans (Nat.add_right_comm fl.elapsed (n + 1) 1)) hn hheld

end Sys2Proof.Machine
end

section
/-! The statements on resets and hazards of 70_reset_and_hazards.md, settled. -/

namespace Sys2Proof.Machine

/-- Settles O10: inside its LATENCY the command has at least one cycle left, and runs at the last. -/
theorem noDrawCommandCommitsAtItsLatency : Obligations.NoDrawCommandCommitsAtItsLatency := by
  intro s fl i henv hf hd hneed hlt
  obtain ⟨n, hleft⟩ := Nat.exists_eq_add_one.mpr (Nat.sub_pos_of_lt hlt)
  rw [hleft]
  exact core_run_of_noDraw hneed n henv hf hd (by omega)

/-- Settles O5: the engine's branch from LATENCY(op) on, at a word that decodes. -/
theorem stepRunsDecodedCommand : Obligations.StepRunsDecodedCommand :=
  fun _ _ _ => step_of_latencyReached

/-- Settles O36: the edge resets the block, which leaves what lies outside it. -/
theorem rstResetsTheBlock : Obligations.RstResetsTheBlock :=
  fun _ _ _ he => ⟨_, step_rst he, rfl, rfl, rfl, rfl, rfl, rfl, rfl, rfl, rfl⟩

end Sys2Proof.Machine
end
